-- ==== Sys2Proof/Word.lean ====
section
/-! DEFINITION. The widths the spec gives to samples, dimensions, registers and block offsets
(00_scope.md R5 and R6; 20_memory.md R60). -/

namespace Sys2Proof

/-- A sample or one bus byte: `u8`, 0..255 (R5, R6). -/
abbrev Byte := BitVec 8

/-- A dimension or a cursor coordinate: `u16` (R5, R47). -/
abbrev Half := BitVec 16

/-- A register value, a command word or the data of a 4-byte access: `u32` (R5, R22, R90). -/
abbrev Word := BitVec 32

/-- A block byte offset, 0x00_0000 to 0x3F_FFFF (R60). -/
abbrev Offset := BitVec 22

end Sys2Proof
end

