-- ==== Sys2Proof/Syntax.lean ====
section
/-! DEFINITION. The commands of FSD command set version 1 (30_encoding.md R93), one constructor per row of
spec/opcode_table.json. Operands are the integers of R92. -/

namespace Sys2Proof

/-- A command (R93). `v` is the sample operand, an integer 0..255, and `d` the delta operand, an integer
−128..127 (R92). `Instr.wf` holds the ranges. -/
inductive Instr where
  /-- NOP, format Z (R105). -/
  | nop
  /-- GEN_PAL, format Z (R129). -/
  | genPal
  /-- DITHER, format Z (R183). -/
  | dither
  /-- QUANT v, format V (R130). -/
  | quant (v : Nat)
  /-- SATADD v, d, format VD (R152). -/
  | satadd (v : Nat) (d : Int)
  deriving DecidableEq, Repr

end Sys2Proof
end

