-- ==== Sys2Proof/WellFormed.lean ====
section
/-! DEFINITION. Which commands have an encoding: the operand ranges of 30_encoding.md R92 and R96
("An operand out of range has no encoding"). -/

namespace Sys2Proof

/-- The sample operand's range, 0 ≤ v ≤ 255 (R96). -/
def sampleInRange (v : Nat) : Bool := decide (v ≤ 255)

/-- The delta operand's range, −128 ≤ d ≤ 127 (R96). -/
def deltaInRange (d : Int) : Bool := decide (-128 ≤ d) && decide (d ≤ 127)

/-- The command's operands are in the ranges R96 gives them. -/
def Instr.wf : Instr → Bool
  | .nop => true
  | .genPal => true
  | .dither => true
  | .quant v => sampleInRange v
  | .satadd v d => sampleInRange v && deltaInRange d

end Sys2Proof
end

