-- ==== Sys2Proof/Decode.lean ====
section
/-! DEFINITION. The decoder, total on every 32-bit word (30_encoding.md R90 to R95), and the encoder of the same
opcode map (R93, R96). -/

namespace Sys2Proof

/-- What a command word is: one of the five commands, an ILLEGAL_OPCODE or a RESERVED_BITS (R95). -/
inductive Decoded where
  | ok (i : Instr)
  /-- OPC in 0x05..0xFF (R95, R202). -/
  | illegalOpcode
  /-- A valid opcode with a reserved bit of its format set (R94, R203). -/
  | reservedBits
  deriving DecidableEq, Repr

/-- `OPC = word[7:0]` (R91). -/
def fieldOpc (w : Word) : Nat := (w.extractLsb' 0 8).toNat

/-- `v = zext(word[15:8])`, an integer 0..255 (R92). -/
def fieldV (w : Word) : Nat := (w.extractLsb' 8 8).toNat

/-- `d = sext_8(word[23:16])`, an integer −128..127 (R92). -/
def fieldD (w : Word) : Int := (w.extractLsb' 16 8).toInt

/-- The reserved bits of each valid opcode's format: Z [31:8], V [31:16], VD [31:24] (R94; the `rmask` of
40_command.md R100). -/
def reservedMask (opc : Nat) : Word :=
  if opc = 3 then 0xFFFF0000#32
  else if opc = 4 then 0xFF000000#32
  else 0xFFFFFF00#32

/-- The command a valid opcode names, with the operands of its format (R92, R93). -/
def commandOf (opc : Nat) (w : Word) : Instr :=
  if opc = 0 then .nop
  else if opc = 1 then .genPal
  else if opc = 2 then .dither
  else if opc = 3 then .quant (fieldV w)
  else .satadd (fieldV w) (fieldD w)

/-- The decoder (R95): the opcode is checked before the reserved bits (R209). -/
def decode (w : Word) : Decoded :=
  if 5 ≤ fieldOpc w then .illegalOpcode
  else if w &&& reservedMask (fieldOpc w) ≠ 0 then .reservedBits
  else .ok (commandOf (fieldOpc w) w)

/-- The 32-bit word of four bus bytes, the byte at the lowest offset in bits [7:0] (R62). -/
def wordOfBytes (b0 b1 b2 b3 : Byte) : Word := b3 ++ b2 ++ b1 ++ b0

/-- The decoder on the bytes of an access to `CMD`: a command is always exactly one 32-bit word (R90), so no
other number of bytes is a command. -/
def decodeBytes : List Byte → Option Decoded
  | [b0, b1, b2, b3] => some (decode (wordOfBytes b0 b1 b2 b3))
  | _ => none

/-- The encoder (R93, R96). -/
def encode : Instr → Word
  | .nop => 0x00000000#32
  | .genPal => 0x00000001#32
  | .dither => 0x00000002#32
  | .quant v => (BitVec.ofNat 32 v <<< 8) ||| 0x03#32
  | .satadd v d => ((BitVec.ofInt 32 d &&& 0xFF#32) <<< 16) ||| (BitVec.ofNat 32 v <<< 8) ||| 0x04#32

/-- The `mask` column of the opcode map (R93). -/
def Instr.mask : Instr → Word
  | .nop => 0xFFFFFFFF#32
  | .genPal => 0xFFFFFFFF#32
  | .dither => 0xFFFFFFFF#32
  | .quant _ => 0xFFFF00FF#32
  | .satadd _ _ => 0xFF0000FF#32

/-- The `match` column of the opcode map (R93). -/
def Instr.pattern : Instr → Word
  | .nop => 0x00000000#32
  | .genPal => 0x00000001#32
  | .dither => 0x00000002#32
  | .quant _ => 0x00000003#32
  | .satadd _ _ => 0x00000004#32

/-- A row of the opcode table whose mask and match this command has: its mnemonic (R93, R96), as characters. -/
def Instr.mnemonic : Instr → List Char
  | .nop => ['N', 'O', 'P']
  | .genPal => ['G', 'E', 'N', '_', 'P', 'A', 'L']
  | .dither => ['D', 'I', 'T', 'H', 'E', 'R']
  | .quant _ => ['Q', 'U', 'A', 'N', 'T']
  | .satadd _ _ => ['S', 'A', 'T', 'A', 'D', 'D']

/-- A word given by its low `nbits` bits, the bits above them 0. -/
def tableWord (nbits w : Nat) : Word := BitVec.ofNat 32 (w % 2 ^ nbits)

/-- What the decoder reads from an instruction whose bits are `w`, numbered as spec/opcode_table.json numbers
them; every FSD-1 command is one 32-bit word (R90). -/
def decodeTableWord (nbits w : Nat) : Option Instr :=
  if nbits ≤ 32 then
    match decode (tableWord nbits w) with
    | .ok i => some i
    | .illegalOpcode => none
    | .reservedBits => none
  else none

end Sys2Proof
end

