-- ==== Sys2Proof/Config.lean ====
section
/-! DEFINITION. The parameters an implementation fixes (00_scope.md R5) and the one free value of the
machine, the draw of R13 and 92_eei_decisions.md D13, D23. -/

namespace Sys2Proof.Config

/-- The parameters of R5 that are not fixed by the spec. They do not change at run time (R20): the state
carries them in one field that no step writes, so that every claim over all states is a claim over all
parameters. -/
structure Params where
  /-- `MAX_PIXELS`: cells per plane, 1 ≤ MAX_PIXELS ≤ 2^20 (R5, D4). -/
  maxPixels : Nat
  /-- `FSD_BASE`: where the block stands in the host's address space (R5, D3). -/
  fsdBase : Nat
  deriving DecidableEq, Repr

/-- The range R5 gives MAX_PIXELS. -/
abbrev Params.wf (c : Params) : Prop := 1 ≤ c.maxPixels ∧ c.maxPixels ≤ 2 ^ 20

/-- The parameters of the machine that `State.reset` starts: 16 cells per plane, the value the vectors of
95_test_vectors.md use, and base 0. DESIGN CHOICE (notes/assumptions/1.md): the spec leaves both open. -/
def Params.standard : Params := { maxPixels := 16, fsdBase := 0 }

/-- A draw: a value under no law (R13, D13, D23). It has no body, so nothing can be proved of its value.
The argument is `State.draws`, which the machine advances at every use, so two draws are unrelated
(notes/assumptions/3.md). -/
opaque draw : Nat → Word

end Sys2Proof.Config
end

