-- ==== Sys2Proof/Machine/State.lean ====
section
/-! DEFINITION. The state of one FSD-1 and of the host that drives it (10_state.md R20 to R49; 00_scope.md R12),
the state after power-on reset (R49, R240), and the reasons a step can stop. -/

namespace Sys2Proof.Machine

/-- The three planes of R45. -/
inductive Channel where
  | r
  | g
  | b
  deriving DecidableEq, Repr

/-- The two agents of R12 (D2). -/
inductive Agent where
  | host
  | engine
  deriving DecidableEq, Repr

/-- The width n of a host access, 1, 2 or 4 bytes (R9). -/
inductive Width where
  | w1
  | w2
  | w4
  deriving DecidableEq, Repr

/-- An n-byte value on the bus (R9). -/
inductive BusData where
  | d1 (v : BitVec 8)
  | d2 (v : BitVec 16)
  | d4 (v : BitVec 32)
  deriving DecidableEq, Repr

/-- A host access: `MemRead(a, n)` or `MemWrite(a, n, v)` (R9). -/
inductive Access where
  | read (a : Offset) (n : Width)
  | write (a : Offset) (d : BusData)
  deriving DecidableEq, Repr

/-- What the host gets back from an access (R9, R208). -/
inductive Response where
  | data (d : BusData)
  | ok
  | busError
  deriving DecidableEq, Repr

/-- One finished host access and its response. -/
structure Event where
  access : Access
  response : Response
  deriving DecidableEq, Repr

/-- One item of the host program: an access (R97), the poll loop `WAIT_IDLE` (R98), or the wait that takes `IRQ`
(R230; notes/assumptions/18.md). -/
inductive HostOp where
  | access (x : Access)
  | waitIdle
  | waitIrq
  deriving DecidableEq, Repr

/-- The error codes of 60_exceptions.md R201. -/
inductive ErrCode where
  | none
  | illegalOpcode
  | reservedBits
  | cmdWhileBusy
  | writeWhileBusy
  | dimRange
  deriving DecidableEq, Repr

/-- One plane: the cells that hold a sample, as (cell index, sample) pairs with strictly rising indexes. A cell
that is not listed holds no value, `⊥` (R45, R241), so no entry equals what an unlisted cell reads as. -/
abbrev Plane := List Host.Cell

/-- The three planes (R45). -/
structure Memory where
  r : Plane
  g : Plane
  b : Plane
  deriving DecidableEq, Repr

/-- The state. The fields from `ie` to `mem` are the architectural state of R20: `STATUS.BUSY`,
`STATUS.PAL_VALID`, `PAL_COUNT`, `PAL`, `QLUT`, `CUR_X`, `CUR_Y` and `IRQ` are views of it (R29, R32, R40 to R43,
R48) and `ID`, `CAPS` and `CMD` hold nothing (R23, R24, R35). The fields from `pending` on are the host agent's
and the model's own. -/
structure State where
  /-- The parameters of R5; no step writes them. -/
  cfg : Config.Params
  /-- `CTRL.IE` (R25). -/
  ie : Bool
  /-- `STATUS.DONE` (R28). -/
  done : Bool
  /-- `STATUS.ERR` (R28). -/
  err : Bool
  /-- `ERR_CODE` (R33). -/
  errCode : ErrCode
  /-- `ERR_INFO` (R34). -/
  errInfo : Word
  /-- `RESULT[7:0]` (R36). -/
  result : Byte
  /-- `WIDTH[15:0]` (R37). -/
  width : Half
  /-- `HEIGHT[15:0]` (R38). -/
  height : Half
  /-- `PAL_K` (R39). -/
  palK : Word
  /-- N, the effective palette size, 0 before any GEN_PAL (R46). -/
  palN : Word
  /-- `OP`: the accepted, not yet completed command word (R47). -/
  op : Option Word
  /-- `LW`: WIDTH as latched at the acceptance of a DITHER (R47). -/
  lw : Half
  /-- `LH`: HEIGHT as latched at the acceptance of a DITHER (R47). -/
  lh : Half
  /-- `PX` (R47). -/
  px : Half
  /-- `PY` (R47). -/
  py : Half
  /-- The planes R, G and B (R45). -/
  mem : Memory
  /-- The host accesses and waits still to come, next first (R75 (a)). DESIGN CHOICE (notes/assumptions/6.md). -/
  pending : List HostOp
  /-- The host accesses that have taken effect and their responses, newest first (R9, R252). -/
  log : List Event
  /-- Which agent moves next where both could, one entry a choice (R12); when it is used up the engine moves.
  DESIGN CHOICE (notes/assumptions/4.md). -/
  schedule : List Agent
  /-- How many draws have been made: the argument of the next one (`Config.draw`). DESIGN CHOICE
  (notes/assumptions/3.md). -/
  draws : Nat
  deriving DecidableEq, Repr

/-- The state after power-on reset of a block with parameters `c` (R49, R240, R241), with no host program. -/
def State.resetWith (c : Config.Params) : State where
  cfg := c
  ie := false
  done := false
  err := false
  errCode := .none
  errInfo := 0#32
  result := 0#8
  width := 0#16
  height := 0#16
  palK := 2#32
  palN := 0#32
  op := none
  lw := 0#16
  lh := 0#16
  px := 0#16
  py := 0#16
  mem := { r := [], g := [], b := [] }
  pending := []
  log := []
  schedule := []
  draws := 0

/-- The machine right after power-on reset (R240), for the parameters `Params.standard` (notes/assumptions/1.md). -/
def State.reset : State := State.resetWith Config.Params.standard

/-- Why a step stops with a fault. -/
inductive Fault where
  /-- `fault Unwritten(c, p)` (R10, R185): raised by the acceptance of a DITHER whose frame holds a cell without a
  value, and by a pixel step that meets one. It is the spec's own model fault. Safe: the hardware goes on with
  whatever the memory holds. -/
  | unwritten (c : Channel) (p : Nat)
  deriving DecidableEq, Repr

/-- Why a step is refused. -/
inductive Refusal where
  /-- Raised by `exec` for an instruction without a meaning; no arm uses it. Safe. -/
  | notModelled (mnemonic : String)
  /-- Raised by an engine step in a state whose `OP` holds a word that is no command, which no run reaches
  (R106: "No other opcode can be in `OP`"). Safe. -/
  | notACommand (w : Word)
  deriving DecidableEq, Repr

end Sys2Proof.Machine
end

