-- ==== Sys2Proof/Machine/Ops.lean ====
section
/-! DEFINITION. The shared operations: planes and cells (10_state.md R45), arithmetic primitives (00_scope.md R11),
recording an error and clearing it (60_exceptions.md R207, R212), acceptance and completion of a command
(40_command.md R101, R103), draws, and the bus log. -/

namespace Sys2Proof.Machine

/-! ### Arithmetic primitives (R7, R11) -/

/-- `u8(v)`: the 8-bit pattern of an integer 0 ≤ v ≤ 255 (R7). -/
def u8 (v : Nat) : Byte := BitVec.ofNat 8 v

/-- `tdiv(a, b)`: division truncating toward zero (R11). -/
def tdiv (a b : Int) : Int := Int.tdiv a b

/-- `clamp(v, lo, hi) = min(max(v, lo), hi)` (R11). -/
def clamp (v lo hi : Int) : Int := min (max v lo) hi

/-! ### Planes and cells (R45) -/

/-- `plane[c][p]`: the cell's sample, or none for `⊥` (R8). -/
def Plane.read : Plane → Nat → Option Byte
  | [], _ => none
  | (a, v) :: m, p => if a = p then some v else Plane.read m p

/-- `plane[c][p] <- v`, keeping the indexes rising (R8). -/
def Plane.write : Plane → Nat → Byte → Plane
  | [], p, v => [(p, v)]
  | (a, w) :: m, p, v =>
    if p < a then (p, v) :: (a, w) :: m
    else if p = a then (p, v) :: m
    else (a, w) :: Plane.write m p v

/-- Cells p, p+1, … take the given bytes (R70). -/
def Plane.writeBytes : Plane → Nat → List Byte → Plane
  | m, _, [] => m
  | m, p, v :: vs => Plane.writeBytes (Plane.write m p v) (p + 1) vs

/-- Every cell with index below n becomes `⊥` (R243). -/
def Plane.clearBelow (m : Plane) (n : Nat) : Plane := m.filter (fun c => decide (n ≤ c.1))

/-- The `⊥` cell with the smallest index below n, if there is one (R185). -/
def Plane.firstUnwritten (m : Plane) (n : Nat) : Option Nat :=
  (List.range n).find? (fun p => (Plane.read m p).isNone)

/-- The canonical form of a plane: strictly rising indexes. -/
abbrev Plane.wf (m : Plane) : Prop := List.Pairwise (fun x y => x.1 < y.1) m

/-- Every listed cell exists: its index is below n = MAX_PIXELS (R45). -/
abbrev Plane.within (m : Plane) (n : Nat) : Prop := ∀ c ∈ m, c.1 < n

/-- Plane c. -/
def Memory.plane (mem : Memory) : Channel → Plane
  | .r => mem.r
  | .g => mem.g
  | .b => mem.b

/-- Plane c replaced. -/
def Memory.setPlane (mem : Memory) (c : Channel) (m : Plane) : Memory :=
  match c with
  | .r => { mem with r := m }
  | .g => { mem with g := m }
  | .b => { mem with b := m }

/-- `plane[c][p]` (R8). -/
def Memory.read (mem : Memory) (c : Channel) (p : Nat) : Option Byte := Plane.read (mem.plane c) p

/-- `plane[c][p] <- v` (R8). -/
def Memory.write (mem : Memory) (c : Channel) (p : Nat) (v : Byte) : Memory :=
  mem.setPlane c (Plane.write (mem.plane c) p v)

/-- Cells p, p+1, … of plane c take the given bytes (R70). -/
def Memory.writeBytes (mem : Memory) (c : Channel) (p : Nat) (vs : List Byte) : Memory :=
  mem.setPlane c (Plane.writeBytes (mem.plane c) p vs)

/-- Every cell with index below n, in all three planes, becomes `⊥` (R243). -/
def Memory.clearBelow (mem : Memory) (n : Nat) : Memory :=
  { r := Plane.clearBelow mem.r n, g := Plane.clearBelow mem.g n, b := Plane.clearBelow mem.b n }

/-- The `⊥` cell of the frame 0 … n−1 with the smallest plane (R < G < B) and then the smallest index (R185). -/
def Memory.firstUnwritten (mem : Memory) (n : Nat) : Option (Channel × Nat) :=
  match Plane.firstUnwritten mem.r n with
  | some p => some (.r, p)
  | none =>
    match Plane.firstUnwritten mem.g n with
    | some p => some (.g, p)
    | none =>
      match Plane.firstUnwritten mem.b n with
      | some p => some (.b, p)
      | none => none

/-- The canonical form of the memory. -/
abbrev Memory.wf (mem : Memory) : Prop := Plane.wf mem.r ∧ Plane.wf mem.g ∧ Plane.wf mem.b

/-- Every listed cell of the memory exists (R45). -/
abbrev Memory.within (mem : Memory) (n : Nat) : Prop :=
  Plane.within mem.r n ∧ Plane.within mem.g n ∧ Plane.within mem.b n

/-! ### Errors: the one shared entry and the return from it (R207, R211, R212) -/

/-- `raise CmdError(code, info)` (R207): the first error since the last clear is kept, ERR is set, and nothing
else changes. No state is saved and no control is transferred (R211). -/
def recordError (code : ErrCode) (info : Word) (s : State) : State :=
  { s with
    errCode := if s.err then s.errCode else code
    errInfo := if s.err then s.errInfo else info
    err := true }

/-- Clearing the error, the W1C of `STATUS` bit 2 (R28, R212). -/
def clearError (s : State) : State := { s with err := false, errCode := .none, errInfo := 0#32 }

/-- Clearing completion, the W1C of `STATUS` bit 1 (R28, R212). -/
def clearDone (s : State) : State := { s with done := false }

/-! ### Acceptance and completion of a command (R101, R103) -/

/-- The word's opcode is DITHER's, `w[7:0] = 0x02` (R101). -/
def isDitherWord (w : Word) : Bool := fieldOpc w == 2

/-- `accept(w)` (R101). -/
def accept (w : Word) (s : State) : State :=
  { s with
    op := some w
    done := false
    lw := if isDitherWord w then s.width else s.lw
    lh := if isDitherWord w then s.height else s.lh
    px := if isDitherWord w then 0#16 else s.px
    py := if isDitherWord w then 0#16 else s.py }

/-- `complete()` (R103). -/
def complete (s : State) : State := { s with op := none, done := true }

/-! ### Draws and the bus log -/

/-- The value of the next draw (R13). -/
def drawn (s : State) : Word := Config.draw s.draws

/-- n draws have been used. -/
def useDraws (n : Nat) (s : State) : State := { s with draws := s.draws + n }

/-- An access has taken effect with this response (R9, R252). -/
def logEvent (x : Access) (r : Response) (s : State) : State :=
  { s with log := { access := x, response := r } :: s.log }

/-- The host faults of R208 and R252: the accesses that got a bus error, newest first, with their offsets and
widths. -/
def State.hostFaults (s : State) : List Access :=
  (s.log.filter (fun e => e.response == .busError)).map (fun e => e.access)

/-! ### Placement in the host's address space (R5, R60) -/

/-- The block offset a host address stands for, if the block is addressed at all: 22 offset bits from `FSD_BASE`
(R60). -/
def offsetOfAddress (c : Config.Params) (addr : Nat) : Option Offset :=
  if c.fsdBase ≤ addr ∧ addr < c.fsdBase + 2 ^ 22 then some (BitVec.ofNat 22 (addr - c.fsdBase)) else none

/-- The host address of a block offset (R60). -/
def addressOfOffset (c : Config.Params) (a : Offset) : Nat := c.fsdBase + a.toNat

end Sys2Proof.Machine
end

