-- ==== Sys2Proof/Machine/Operands.lean ====
section
/-! DEFINITION. Operand forms: the register operands of GEN_PAL and DITHER (30_encoding.md R92), the data of a
1-, 2- or 4-byte access in little-endian order (20_memory.md R62), and the address map with its bus checks
(R61 to R66). -/

namespace Sys2Proof.Machine

/-! ### Register operands of commands (R92) -/

/-- GEN_PAL's operand K, register `PAL_K` (R129). -/
def operandK (s : State) : Nat := s.palK.toNat

/-- The number of cells of the frame a DITHER submitted now would have, WIDTH × HEIGHT, exact (R100). -/
def requestedFrame (s : State) : Nat := s.width.toNat * s.height.toNat

/-- The number of cells of the latched frame, LW × LH (R170). -/
def latchedFrame (s : State) : Nat := s.lw.toNat * s.lh.toNat

/-- Cell index of sample `[y][x]`: p = y × LW + x (R45, R74). -/
def cellIndex (lw x y : Nat) : Nat := y * lw + x

/-! ### Bus data (R62) -/

/-- The number of bytes of an access. -/
def Width.bytes : Width → Nat
  | .w1 => 1
  | .w2 => 2
  | .w4 => 4

/-- The width of a value. -/
def BusData.width : BusData → Width
  | .d1 _ => .w1
  | .d2 _ => .w2
  | .d4 _ => .w4

/-- The low n bytes of a word, as bus data. -/
def BusData.ofWord (n : Width) (w : Word) : BusData :=
  match n with
  | .w1 => .d1 (w.setWidth 8)
  | .w2 => .d2 (w.setWidth 16)
  | .w4 => .d4 w

/-- The value's bytes; byte k is bits [8k+7:8k], lowest offset first (R62). -/
def BusData.bytes : BusData → List Byte
  | .d1 v => [v]
  | .d2 v => [v.extractLsb' 0 8, v.extractLsb' 8 8]
  | .d4 v => [v.extractLsb' 0 8, v.extractLsb' 8 8, v.extractLsb' 16 8, v.extractLsb' 24 8]

/-- The word whose byte k is the k-th byte of the list (R62). -/
def wordOfByteList : List Byte → Word
  | [] => 0#32
  | v :: vs => (wordOfByteList vs <<< 8) ||| v.setWidth 32

/-- The bytes of an access, lowest offset first, as its data (R62, R69). -/
def BusData.ofBytes (n : Width) (vs : List Byte) : BusData := BusData.ofWord n (wordOfByteList vs)

/-! ### The address map and the bus checks (R61 to R66) -/

/-- Where an access without a bus error goes. -/
inductive Target where
  /-- The register window, at this 4-aligned offset. -/
  | register (a : Nat)
  /-- Cells p … p+n−1 of plane c. -/
  | cells (c : Channel) (p : Nat)
  deriving DecidableEq, Repr

/-- `base_R`, `base_G`, `base_B` (R66). -/
def planeBase : Channel → Nat
  | .r => 0x100000
  | .g => 0x200000
  | .b => 0x300000

/-- The plane whose window holds offset a ≥ 0x10_0000 (R61). -/
def planeOf (a : Nat) : Channel :=
  if a < 0x200000 then .r else if a < 0x300000 then .g else .b

/-- The bus checks in one place: the target of an n-byte access at offset a, or none for a bus error
(R63, R64, R65, R66). -/
def target (maxPixels : Nat) (a : Offset) (n : Width) : Option Target :=
  if a.toNat < 0x1000 then
    if n = .w4 ∧ a.toNat % 4 = 0 then some (.register a.toNat) else none
  else if a.toNat < 0x100000 then none
  else if a.toNat % n.bytes ≠ 0 then none
  else if a.toNat % 0x100000 + n.bytes ≤ maxPixels then
    some (.cells (planeOf a.toNat) (a.toNat % 0x100000))
  else none

/-- The offset and the width of an access. -/
def Access.offset : Access → Offset
  | .read a _ => a
  | .write a _ => a

/-- The width of an access. -/
def Access.width : Access → Width
  | .read _ n => n
  | .write _ d => d.width

end Sys2Proof.Machine
end

