-- ==== Sys2Proof/Machine/Flags.lean ====
section
/-! DEFINITION. The status bits and the interrupt: `STATUS` (10_state.md R28 to R32), `CTRL.IE` (R25, R26),
`IRQ` (R48, R214), and writes to `STATUS` (R28). -/

namespace Sys2Proof.Machine

/-- `STATUS.BUSY = (OP ≠ none)` (R29). -/
def State.busy (s : State) : Bool := s.op.isSome

/-- `STATUS.PAL_VALID`: 1 exactly when N ≠ 0 (R32). -/
def State.palValid (s : State) : Bool := s.palN != 0#32

/-- `IRQ = CTRL.IE AND (STATUS.DONE OR STATUS.ERR)` (R48). -/
def State.irq (s : State) : Bool := s.ie && (s.done || s.err)

/-- A bit of a register as its value at position k. -/
def bitAt (k : Nat) (x : Bool) : Word := (BitVec.ofBool x).setWidth 32 <<< k

/-- The read value of `STATUS` (R28). -/
def statusWord (s : State) : Word :=
  bitAt 0 s.busy ||| bitAt 1 s.done ||| bitAt 2 s.err ||| bitAt 3 s.palValid

/-- The read value of `CTRL`, `{30'b0, 1'b0, IE}` (R25). -/
def ctrlWord (s : State) : Word := bitAt 0 s.ie

/-- The code's value, as `ERR_CODE` reads (R33, R201). -/
def ErrCode.word : ErrCode → Word
  | .none => 0#32
  | .illegalOpcode => 1#32
  | .reservedBits => 2#32
  | .cmdWhileBusy => 3#32
  | .writeWhileBusy => 4#32
  | .dimRange => 5#32

/-- A write of v to `STATUS` (R28): bit 1 clears DONE, bit 2 clears ERR, `ERR_CODE` and `ERR_INFO`; nothing else
is written. -/
def writeStatus (v : Word) (s : State) : State :=
  let s1 := if v.getLsbD 1 then clearDone s else s
  if v.getLsbD 2 then clearError s1 else s1

/-- The running command is a DITHER (R243). -/
def State.dithering (s : State) : Bool :=
  match s.op with
  | some w => isDitherWord w
  | none => false

end Sys2Proof.Machine
end

