-- ==== Sys2Proof/Machine/Command.lean ====
section
/-! DEFINITION. Submission, acceptance and rejection of a command (40_command.md R100 to R102; 60_exceptions.md
R201 to R209), and NOP (R105). -/

namespace Sys2Proof.Machine

/-- Submission of a word by a 4-byte write to `CMD` (R100), the checks in the order of R209. A DITHER that passes
them faults if its frame holds a cell without a value (R185). -/
def submit (w : Word) (s : State) : Host.Outcome State Fault Refusal :=
  if s.busy then .next (recordError .cmdWhileBusy w s)
  else
    match decode w with
    | .illegalOpcode => .next (recordError .illegalOpcode w s)
    | .reservedBits => .next (recordError .reservedBits w s)
    | .ok i =>
      if i = .dither then
        if s.cfg.maxPixels < requestedFrame s then .next (recordError .dimRange w s)
        else
          match s.mem.firstUnwritten (requestedFrame s) with
          | some (c, p) => .fault (.unwritten c p)
          | none => .next (accept w s)
      else .next (accept w s)

/-- NOP: its one engine step, the completion (R105). -/
def execNop (s : State) : Host.Outcome State Fault Refusal := .next (complete s)

end Sys2Proof.Machine
end

