-- ==== Sys2Proof/Machine/Palette.lean ====
section
/-! DEFINITION. The palette generator and the nearest-level quantizer (41_palette_quantizer.md R120 to R127), and
the commands GEN_PAL (R129) and QUANT (R130). -/

namespace Sys2Proof.Machine

/-- The effective size N(K) (R120). -/
def effectiveSize (k : Nat) : Nat := if k ≤ 1 then 2 else k

/-- `PALSEQ[i] = ⌊(i × 255) / (N − 1)⌋`, on unbounded integers (R121, D43). -/
def palEntry (n i : Nat) : Nat := i * 255 / (n - 1)

/-- The palette sequence, N entries; empty for N = 0 (R46, R121). -/
def palSeq (n : Nat) : List Nat := (List.range n).map (palEntry n)

/-- `|v − p|` (R11). -/
def distance (v : Int) (p : Nat) : Nat := (v - p).natAbs

/-- The nearest-level scan on any palette sequence, earlier entry first, strict less-than (R125). -/
def nearest (ps : List Nat) (v : Int) : Nat :=
  match ps with
  | [] => 0
  | p :: rest => rest.foldl (fun best q => if distance v q < distance v best then q else best) p

/-- The index of the largest entry not above v: the largest i ≤ N−1 with i × 255 < (v+1)(N−1). -/
def levelIndex (n v : Nat) : Nat := min (n - 1) (((v + 1) * (n - 1) - 1) / 255)

/-- The quantizer Q(v) for palette size N (R126), in the threshold form of R127: a the largest level not above v,
b the smallest above it. It is `nearest (palSeq n) v` for every n and v: `quantize_eq_nearest` in
Sys2Proof/Laws/Palette.lean. N is up to 2^32 − 1, so the scan itself cannot be run. -/
def quantize (n v : Nat) : Nat :=
  if n = 0 then 0
  else if levelIndex n v = n - 1 then palEntry n (levelIndex n v)
  else if v ≤ (palEntry n (levelIndex n v) + palEntry n (levelIndex n v + 1)) / 2 then
    palEntry n (levelIndex n v)
  else palEntry n (levelIndex n v + 1)

/-- What `PAL[i]` reads: the entry for i < min(N, 256), 0 otherwise (R42). -/
def palSlot (n i : Nat) : Nat := if i < min n 256 then palEntry n i else 0

/-- GEN_PAL (R129): N takes the effective size of `PAL_K`, and the command completes. -/
def execGenPal (s : State) : Host.Outcome State Fault Refusal :=
  .next (complete { s with palN := BitVec.ofNat 32 (effectiveSize (operandK s)) })

/-- QUANT v (R130): `RESULT` takes Q(v), and the command completes. -/
def execQuant (v : Nat) (s : State) : Host.Outcome State Fault Refusal :=
  .next (complete { s with result := u8 (quantize s.palN.toNat v) })

end Sys2Proof.Machine
end

