-- ==== Sys2Proof/Machine/Registers.lean ====
section
/-! DEFINITION. The register map (10_state.md R22) and the read value of every register (R23 to R44). -/

namespace Sys2Proof.Machine

/-- The registers of R22, the read-back windows `PAL[i]` and `QLUT[v]`, and the reserved offsets. -/
inductive Reg where
  | id
  | caps
  | ctrl
  | status
  | errCode
  | errInfo
  | cmd
  | result
  | width
  | height
  | palK
  | palCount
  | curX
  | curY
  | pal (i : Nat)
  | qlut (v : Nat)
  | reserved
  deriving DecidableEq, Repr

/-- The register at a 4-aligned offset of the register window (R22). -/
def regAt (a : Nat) : Reg :=
  if a = 0x000 then .id
  else if a = 0x004 then .caps
  else if a = 0x008 then .ctrl
  else if a = 0x00C then .status
  else if a = 0x010 then .errCode
  else if a = 0x014 then .errInfo
  else if a = 0x018 then .cmd
  else if a = 0x01C then .result
  else if a = 0x020 then .width
  else if a = 0x024 then .height
  else if a = 0x028 then .palK
  else if a = 0x02C then .palCount
  else if a = 0x030 then .curX
  else if a = 0x034 then .curY
  else if 0x400 ≤ a ∧ a < 0x800 then .pal ((a - 0x400) / 4)
  else if 0x800 ≤ a ∧ a < 0xC00 then .qlut ((a - 0x800) / 4)
  else .reserved

/-- The constant of `ID` (R23, D1). -/
def idValue : Word := 0x46534401#32

/-- The register's read value, exact (R23 to R44). -/
def readReg (r : Reg) (s : State) : Word :=
  match r with
  | .id => idValue
  | .caps => BitVec.ofNat 32 s.cfg.maxPixels
  | .ctrl => ctrlWord s
  | .status => statusWord s
  | .errCode => s.errCode.word
  | .errInfo => s.errInfo
  | .cmd => 0#32
  | .result => s.result.setWidth 32
  | .width => s.width.setWidth 32
  | .height => s.height.setWidth 32
  | .palK => s.palK
  | .palCount => s.palN
  | .curX => s.px.setWidth 32
  | .curY => s.py.setWidth 32
  | .pal i => BitVec.ofNat 32 (palSlot s.palN.toNat i)
  | .qlut v => BitVec.ofNat 32 (quantize s.palN.toNat v)
  | .reserved => 0#32

/-- The registers whose read while BUSY = 1 is a draw (R36, R41, R67, D13). -/
def Reg.drawnWhileBusy : Reg → Bool
  | .result => true
  | .curX => true
  | .curY => true
  | .id => false
  | .caps => false
  | .ctrl => false
  | .status => false
  | .errCode => false
  | .errInfo => false
  | .cmd => false
  | .width => false
  | .height => false
  | .palK => false
  | .palCount => false
  | .pal _ => false
  | .qlut _ => false
  | .reserved => false

end Sys2Proof.Machine
end

