-- ==== Sys2Proof/Machine/Bus.lean ====
section
/-! DEFINITION. The host's accesses (20_memory.md R67 to R73): register and plane reads and writes, the soft reset
(70_reset_and_hazards.md R242, R243), and one step of the host agent (00_scope.md R12). -/

namespace Sys2Proof.Machine

/-! ### Soft reset (R27, R242, R243) -/

/-- The planes after a soft reset: kept, but for the frame of a running DITHER, which becomes `⊥` (R243). -/
def planesAfterSoftReset (s : State) : Memory :=
  if s.dithering then s.mem.clearBelow (latchedFrame s) else s.mem

/-- Soft reset: every register takes its reset value (R49, R242). The host's own program, log and schedule and the
draws are no registers and stay. -/
def softReset (s : State) : State :=
  { State.resetWith s.cfg with
    mem := planesAfterSoftReset s
    pending := s.pending
    log := s.log
    schedule := s.schedule
    draws := s.draws }

/-! ### Reads (R67, R69) -/

/-- Register read (R67): a draw for `RESULT`, `CUR_X` and `CUR_Y` while BUSY, exact otherwise. Only the draw counter
can change. -/
def hostReadReg (r : Reg) (s : State) : Word × State :=
  if s.busy && r.drawnWhileBusy then (drawn s, useDraws 1 s) else (readReg r s, s)

/-- n cells from index p on, a fresh draw for each that holds no value, and the number of draws used; k is the first
draw (R69). -/
def readCells (m : Plane) : Nat → Nat → Nat → List Byte × Nat
  | 0, _, _ => ([], 0)
  | n + 1, p, k =>
    match Plane.read m p with
    | some v => (v :: (readCells m n (p + 1) k).1, (readCells m n (p + 1) k).2)
    | none =>
      ((Config.draw k).setWidth 8 :: (readCells m n (p + 1) (k + 1)).1, (readCells m n (p + 1) (k + 1)).2 + 1)

/-- Plane read (R69): a draw while BUSY, otherwise the cells. Only the draw counter can change. -/
def hostReadPlane (c : Channel) (p : Nat) (n : Width) (s : State) : BusData × State :=
  if s.busy then (BusData.ofWord n (drawn s), useDraws 1 s)
  else
    (BusData.ofBytes n (readCells (s.mem.plane c) n.bytes p s.draws).1,
      useDraws (readCells (s.mem.plane c) n.bytes p s.draws).2 s)

/-- `MemRead(a, n)` (R9): its response and the state after it. -/
def hostRead (a : Offset) (n : Width) (s : State) : Response × State :=
  match target s.cfg.maxPixels a n with
  | none => (.busError, s)
  | some (.register r) => (.data (.d4 (hostReadReg (regAt r) s).1), (hostReadReg (regAt r) s).2)
  | some (.cells c p) => (.data (hostReadPlane c p n s).1, (hostReadPlane c p n s).2)

/-! ### Writes (R68, R70) -/

/-- A configuration write: stored while idle, refused with WRITE_WHILE_BUSY while busy (R37 to R39, R68, R205). -/
def writeConfig (a : Word) (stored : State) (s : State) : State :=
  if s.busy then recordError .writeWhileBusy a s else stored

/-- A write to `CTRL` (R25): soft reset if bit 1 is set, else IE takes bit 0. -/
def writeCtrl (v : Word) (s : State) : State :=
  if v.getLsbD 1 then softReset s else { s with ie := v.getLsbD 0 }

/-- Register write of v (R68). -/
def hostWriteReg (r : Reg) (v : Word) (s : State) : Host.Outcome State Fault Refusal :=
  match r with
  | .ctrl => .next (writeCtrl v s)
  | .status => .next (writeStatus v s)
  | .cmd => submit v s
  | .width => .next (writeConfig 0x020#32 { s with width := v.setWidth 16 } s)
  | .height => .next (writeConfig 0x024#32 { s with height := v.setWidth 16 } s)
  | .palK => .next (writeConfig 0x028#32 { s with palK := v } s)
  | .id => .next s
  | .caps => .next s
  | .errCode => .next s
  | .errInfo => .next s
  | .result => .next s
  | .palCount => .next s
  | .curX => .next s
  | .curY => .next s
  | .pal _ => .next s
  | .qlut _ => .next s
  | .reserved => .next s

/-- Plane write at offset a (R70): refused with WRITE_WHILE_BUSY while busy, otherwise every cell it covers takes its
byte. -/
def hostWritePlane (a : Offset) (c : Channel) (p : Nat) (d : BusData) (s : State) : State :=
  if s.busy then recordError .writeWhileBusy (a.setWidth 32) s
  else { s with mem := s.mem.writeBytes c p d.bytes }

/-- The data of a 4-byte access; the bus check gives a register only to those (R63). -/
def BusData.word : BusData → Word
  | .d1 v => v.setWidth 32
  | .d2 v => v.setWidth 32
  | .d4 v => v

/-- `MemWrite(a, n, v)` on a target the bus checks allow (R68, R70). -/
def hostWriteTarget (a : Offset) (d : BusData) (t : Target) (s : State) : Host.Outcome State Fault Refusal :=
  match t with
  | .register r => hostWriteReg (regAt r) d.word s
  | .cells c p => .next (hostWritePlane a c p d s)

/-! ### The host agent (R12, R97, R98) -/

/-- One access takes effect and its response is logged. An access that fails a bus check changes no state of the
block and is a host fault in the log (R208, R210, D44). DESIGN CHOICE for the run going on (notes/assumptions/2.md). -/
def hostAccess (x : Access) (s : State) : Host.Outcome State Fault Refusal :=
  match x with
  | .read a n => .next (logEvent x (hostRead a n s).1 (hostRead a n s).2)
  | .write a d =>
    match target s.cfg.maxPixels a d.width with
    | none => .next (logEvent x .busError s)
    | some t =>
      match hostWriteTarget a d t s with
      | .next s' => .next (logEvent x .ok s')
      | .fault f => .fault f
      | .refused r => .refused r

/-- The read of `STATUS`, offset 0x00C. -/
def statusRead : Access := .read 0x00C#22 .w4

/-- One host step: an access; one turn of the poll loop `WAIT_IDLE`, which reads `STATUS` and goes on while bit 0 is 1
(R98); or one turn of the wait for `IRQ`, which the host takes where the line is high and goes on waiting for where it is
low (R76, R230). Taking it is no access, so it touches no register and nothing is logged, and the handler's accesses
are the program's next ones (R211): DESIGN CHOICE (notes/assumptions/18.md). -/
def hostStep (h : HostOp) (s : State) : Host.Outcome State Fault Refusal :=
  match h with
  | .access x => hostAccess x s
  | .waitIdle => hostAccess statusRead { s with pending := if s.busy then .waitIdle :: s.pending else s.pending }
  | .waitIrq => .next { s with pending := if s.irq then s.pending else .waitIrq :: s.pending }

end Sys2Proof.Machine
end

