-- ==== Sys2Proof/Machine/SatAdd.lean ====
section
/-! DEFINITION. The saturating signed increment (42_saturating_add.md R150, R151) and the command SATADD (R152). -/

namespace Sys2Proof.Machine

/-- `sat_add8(v, d)`: clamp(v + d, 0, 255), v + d computed on integers (R150). -/
def satAdd8 (v : Nat) (d : Int) : Nat := (clamp (v + d) 0 255).toNat

/-- SATADD v, d (R152): `RESULT` takes the saturated sum, and the command completes. -/
def execSatadd (v : Nat) (d : Int) (s : State) : Host.Outcome State Fault Refusal :=
  .next (complete { s with result := u8 (satAdd8 v d) })

end Sys2Proof.Machine
end

