-- ==== Sys2Proof/Machine/Dither.lean ====
section
/-! DEFINITION. The Floyd–Steinberg engine (43_dither.md R170 to R185): the pixel step on one channel, the pixel step
of the machine, the completion, and the command DITHER. -/

namespace Sys2Proof.Machine

/-- A diffusion target and its weight (R173). -/
structure Share where
  x : Nat
  y : Nat
  weight : Int
  deriving DecidableEq, Repr

/-- The targets of pixel (x, y) whose guards hold, in the order of R172 (R173); a share whose guard fails is
discarded (R179). -/
def shares (lw lh x y : Nat) : List Share :=
  (if x + 1 < lw then [{ x := x + 1, y := y, weight := 7 }] else []) ++
  (if y + 1 < lh ∧ 0 < x then [{ x := x - 1, y := y + 1, weight := 3 }] else []) ++
  (if y + 1 < lh then [{ x := x, y := y + 1, weight := 5 }] else []) ++
  (if y + 1 < lh ∧ x + 1 < lw then [{ x := x + 1, y := y + 1, weight := 1 }] else [])

/-- `delta = tdiv(err × w, 16)` (R174). -/
def delta (err weight : Int) : Int := tdiv (err * weight) 16

/-- `diffuse` (R172, R176): the delta is added with saturation into the target cell. A cell without a value has no
sum: its index is the error (R185). -/
def diffuse (lw : Nat) (err : Int) (t : Share) (m : Plane) : Except Nat Plane :=
  match Plane.read m (cellIndex lw t.x t.y) with
  | none => .error (cellIndex lw t.x t.y)
  | some old =>
    .ok (Plane.write m (cellIndex lw t.x t.y) (u8 (satAdd8 old.toNat (delta err t.weight))))

/-- The targets one after the other (R172). -/
def diffuseAll (lw : Nat) (err : Int) : List Share → Plane → Except Nat Plane
  | [], m => .ok m
  | t :: ts, m =>
    match diffuse lw err t m with
    | .error p => .error p
    | .ok m' => diffuseAll lw err ts m'

/-- The pixel step at (x, y) on one channel's plane, for palette size n (R172). -/
def pixelPlane (n lw lh x y : Nat) (m : Plane) : Except Nat Plane :=
  match Plane.read m (cellIndex lw x y) with
  | none => .error (cellIndex lw x y)
  | some old =>
    diffuseAll lw ((old.toNat : Int) - (quantize n old.toNat : Int)) (shares lw lh x y)
      (Plane.write m (cellIndex lw x y) (u8 (quantize n old.toNat)))

/-- The pixel step on the three planes, each by itself (R172, R182). -/
def pixelMemory (n lw lh x y : Nat) (mem : Memory) : Except (Channel × Nat) Memory :=
  match pixelPlane n lw lh x y mem.r with
  | .error p => .error (.r, p)
  | .ok r =>
    match pixelPlane n lw lh x y mem.g with
    | .error p => .error (.g, p)
    | .ok g =>
      match pixelPlane n lw lh x y mem.b with
      | .error p => .error (.b, p)
      | .ok b => .ok { r := r, g := g, b := b }

/-- The cursor after the pixel step at (x, y): the next raster position (R172). -/
def advanceCursor (s : State) : State :=
  if s.px.toNat + 1 < s.lw.toNat then { s with px := s.px + 1#16 }
  else { s with px := 0#16, py := s.py + 1#16 }

/-- The cursor stands at a pixel of the frame, so a pixel step remains (R171). -/
def State.pixelLeft (s : State) : Bool :=
  decide (s.px.toNat < s.lw.toNat) && decide (s.py.toNat < s.lh.toNat)

/-- One pixel step of the running DITHER (R172). -/
def pixelStep (s : State) : Host.Outcome State Fault Refusal :=
  match pixelMemory s.palN.toNat s.lw.toNat s.lh.toNat s.px.toNat s.py.toNat s.mem with
  | .error (c, p) => .fault (.unwritten c p)
  | .ok mem' => .next (advanceCursor { s with mem := mem' })

/-- `dither_complete()` (R183). -/
def ditherComplete (s : State) : State := complete { s with px := 0#16, py := s.lh }

/-- DITHER: its next engine step, a pixel step while one is left and then the completion (R171, R183, R184). DEDUCED that
the cursor says which step is next (notes/assumptions/8.md). -/
def execDither (s : State) : Host.Outcome State Fault Refusal :=
  if s.pixelLeft then pixelStep s else .next (ditherComplete s)

end Sys2Proof.Machine
end

