-- ==== Sys2Proof/Machine/Dispatch.lean ====
section
/-! DEFINITION. The engine's dispatch (40_command.md R106): one arm per command. -/

namespace Sys2Proof.Machine

/-- The next engine step of the running command i (R104, R106). -/
def exec (i : Instr) (s : State) : Host.Outcome State Fault Refusal :=
  match i with
  | .nop => Sys2Proof.Machine.execNop s
  | .genPal => Sys2Proof.Machine.execGenPal s
  | .dither => Sys2Proof.Machine.execDither s
  | .quant v => Sys2Proof.Machine.execQuant v s
  | .satadd v d => Sys2Proof.Machine.execSatadd v d s

end Sys2Proof.Machine
end

