-- ==== Sys2Proof/Machine/Step.lean ====
section
/-! DEFINITION. One step of the machine: the host and the engine take atomic steps in one total order (00_scope.md
R12; 20_memory.md R75 (c)). -/

namespace Sys2Proof.Machine

/-- The engine's step: the command whose word is in `OP` (R104, R106). A word that is no command cannot be there: DEDUCED
(notes/assumptions/9.md). -/
def engineStep (w : Word) (s : State) : Host.Outcome State Fault Refusal :=
  match decode w with
  | .ok i => exec i s
  | .illegalOpcode => .refused (.notACommand w)
  | .reservedBits => .refused (.notACommand w)

/-- One step. The engine can move exactly when `OP ≠ none` (R104), the host when an item of its program is pending. Where both can,
`schedule` says which does, and the engine when it says nothing, so no accepted command waits forever (R104). Where
neither can, the block is idle and the run is at its end (R221, R244, R252): nothing changes. DESIGN CHOICE for the
schedule (notes/assumptions/4.md), DEDUCED for the idle step (notes/assumptions/7.md). -/
def step (s : State) : Host.Outcome State Fault Refusal :=
  match s.op, s.pending with
  | none, [] => .next s
  | none, h :: rest => hostStep h { s with pending := rest }
  | some w, [] => engineStep w s
  | some w, h :: rest =>
    match s.schedule with
    | [] => engineStep w s
    | .engine :: sched => engineStep w { s with schedule := sched }
    | .host :: sched => hostStep h { s with pending := rest, schedule := sched }

/-- The state in which the command word of these bits is accepted and the engine moves next: `OP` is where the
engine finds its command (R106), and acceptance is what puts it there (R101). The checks of R100 are not made. DESIGN CHOICE
(notes/assumptions/5.md). -/
def State.withFetchWord (s : State) (nbits w : Nat) : State :=
  { accept (tableWord nbits w) s with
    schedule := if s.pending.isEmpty then s.schedule else .engine :: s.schedule }

end Sys2Proof.Machine
end

