-- ==== Sys2Proof/Machine/Asm.lean ====
section
/-! DEFINITION. The assembler syntax of commands (30_encoding.md R96) and the disassembler (R99), on lines of
characters. It describes notation and is no part of the machine's step. -/

namespace Sys2Proof.Machine

/-! ### Printing (R96, R99) -/

/-- The digit of a value below 16. -/
def digitChar (n : Nat) : Char := if n < 10 then Char.ofNat (48 + n) else Char.ofNat (55 + n)

/-- A number below 1000 in decimal. -/
def printNat (n : Nat) : List Char :=
  (if 100 ≤ n then [digitChar (n / 100)] else []) ++
  (if 10 ≤ n then [digitChar (n / 10 % 10)] else []) ++
  [digitChar (n % 10)]

/-- The delta operand in decimal, "with a leading `-` allowed for d" (R96). -/
def printDelta (d : Int) : List Char := if d < 0 then '-' :: printNat (-d).toNat else printNat d.toNat

/-- `MNEMONIC [operands]` (R96). -/
def printInstr (i : Instr) : List Char :=
  match i with
  | .nop => i.mnemonic
  | .genPal => i.mnemonic
  | .dither => i.mnemonic
  | .quant v => i.mnemonic ++ (' ' :: printNat v)
  | .satadd v d => i.mnemonic ++ (' ' :: printNat v) ++ (',' :: ' ' :: printDelta d)

/-- `0x` and the eight hexadecimal digits of a word (notes/assumptions/12.md). -/
def printWord (w : Word) : List Char :=
  '0' :: 'x' :: [7, 6, 5, 4, 3, 2, 1, 0].map (fun k => digitChar ((w.extractLsb' (4 * k) 4).toNat))

/-- The disassembler (R99): a command by R96, `.illegal 0x<word>` or `.reserved 0x<word>`. -/
def disassemble (w : Word) : List Char :=
  match decode w with
  | .ok i => printInstr i
  | .illegalOpcode => ['.', 'i', 'l', 'l', 'e', 'g', 'a', 'l', ' '] ++ printWord w
  | .reservedBits => ['.', 'r', 'e', 's', 'e', 'r', 'v', 'e', 'd', ' '] ++ printWord w

/-! ### Reading (R96) -/

/-- The value of a decimal or hexadecimal digit. -/
def digitValue (c : Char) : Option Nat :=
  if 48 ≤ c.toNat ∧ c.toNat ≤ 57 then some (c.toNat - 48)
  else if 65 ≤ c.toNat ∧ c.toNat ≤ 70 then some (c.toNat - 55)
  else if 97 ≤ c.toNat ∧ c.toNat ≤ 102 then some (c.toNat - 87)
  else none

/-- The number a list of digits of a base stands for, n being the part already read. -/
def readDigits (base : Nat) : List Char → Nat → Option Nat
  | [], n => some n
  | c :: cs, n =>
    match digitValue c with
    | none => none
    | some k => if k < base then readDigits base cs (n * base + k) else none

/-- An unsigned decimal number: at least one digit. -/
def readDecimal : List Char → Option Nat
  | [] => none
  | c :: cs => readDigits 10 (c :: cs) 0

/-- The digits after `0x`, if the operand is hexadecimal. -/
def hexDigits : List Char → Option (List Char)
  | '0' :: 'x' :: c :: cs => some (c :: cs)
  | _ => none

/-- The sample operand, 0..255, decimal or hexadecimal; out of range it has no encoding (R96). R96 does not say whether the
`_` of R6 may separate its digits: it is refused here, and so in `readDelta`: DESIGN CHOICE (notes/assumptions/12.md). -/
def readSample (cs : List Char) : Option Nat :=
  match (match hexDigits cs with
    | some ds => readDigits 16 ds 0
    | none => readDecimal cs) with
  | none => none
  | some n => if n ≤ 255 then some n else none

/-- The delta operand, −128..127: decimal with an optional `-`, or hexadecimal giving the 8-bit pattern (R96); no `_`
between digits: DESIGN CHOICE (notes/assumptions/12.md). -/
def readDelta (cs : List Char) : Option Int :=
  match hexDigits cs with
  | some ds =>
    match readDigits 16 ds 0 with
    | none => none
    | some n => if n ≤ 255 then some (BitVec.ofNat 8 n).toInt else none
  | none =>
    match cs with
    | '-' :: ds =>
      match readDecimal ds with
      | none => none
      | some n => if n ≤ 128 then some (-(n : Int)) else none
    | ds =>
      match readDecimal ds with
      | none => none
      | some n => if n ≤ 127 then some (n : Int) else none

/-- Without the blanks at both ends. A blank is the space alone, here and between the parts of a line (`parseLine`,
`parseHostLine`): R96 and R97 do not say which characters are blanks, so that a tab is none is a DESIGN CHOICE
(notes/assumptions/12.md). -/
def trimBlanks (cs : List Char) : List Char :=
  ((cs.dropWhile (· == ' ')).reverse.dropWhile (· == ' ')).reverse

/-- A letter in capitals; mnemonics are case-insensitive (R96). -/
def upperChar (c : Char) : Char := if 97 ≤ c.toNat ∧ c.toNat ≤ 122 then Char.ofNat (c.toNat - 32) else c

/-- The command a mnemonic in capitals and its operand text stand for (R96). -/
def readCommand (mnemonic operands : List Char) : Option Instr :=
  if mnemonic = Instr.nop.mnemonic then (if operands = [] then some .nop else none)
  else if mnemonic = Instr.genPal.mnemonic then (if operands = [] then some .genPal else none)
  else if mnemonic = Instr.dither.mnemonic then (if operands = [] then some .dither else none)
  else if mnemonic = (Instr.quant 0).mnemonic then (readSample operands).map .quant
  else if mnemonic = (Instr.satadd 0 0).mnemonic then
    match operands.dropWhile (· != ',') with
    | [] => none
    | _ :: second =>
      match readSample (trimBlanks (operands.takeWhile (· != ','))), readDelta (trimBlanks second) with
      | some v, some d => some (.satadd v d)
      | _, _ => none
  else none

/-- The command of one line, if the line is one (R96). -/
def parseLine (line : List Char) : Option Instr :=
  readCommand (((trimBlanks line).takeWhile (· != ' ')).map upperChar)
    (trimBlanks ((trimBlanks line).dropWhile (· != ' ')))

/-- The assembler on one line: the command's word (R96). -/
def assembleLine (line : List Char) : Option Word := (parseLine line).map encode

end Sys2Proof.Machine
end

