-- ==== Sys2Proof/Machine/HostProgram.lean ====
section
/-! DEFINITION. Host programs (30_encoding.md R97) and their pseudo-instructions (R98), as data: each line expands to
the host's accesses. -/

namespace Sys2Proof.Machine

/-- The offset a register name stands for (R22, R97); a reserved offset has no name and gives none. -/
def Reg.offset : Reg → Option Nat
  | .id => some 0x000
  | .caps => some 0x004
  | .ctrl => some 0x008
  | .status => some 0x00C
  | .errCode => some 0x010
  | .errInfo => some 0x014
  | .cmd => some 0x018
  | .result => some 0x01C
  | .width => some 0x020
  | .height => some 0x024
  | .palK => some 0x028
  | .palCount => some 0x02C
  | .curX => some 0x030
  | .curY => some 0x034
  | .pal i => if i < 256 then some (0x400 + 4 * i) else none
  | .qlut v => if v < 256 then some (0x800 + 4 * v) else none
  | .reserved => none

/-- An address of a host program: a number, a register name, or `R+p`, `G+p`, `B+p` (R97). -/
inductive Symbol where
  | number (a : Offset)
  | register (r : Reg)
  | cell (c : Channel) (p : Nat)
  deriving DecidableEq, Repr

/-- The offset of a symbol (R97). A cell beyond the plane window (R61) has none: DESIGN CHOICE (notes/assumptions/19.md). -/
def Symbol.offset : Symbol → Option Offset
  | .number a => some a
  | .register r => r.offset.map (BitVec.ofNat 22)
  | .cell c p => if p < 0x100000 then some (BitVec.ofNat 22 (planeBase c + p)) else none

/-- One line of a host program: an access (R97) or a pseudo-instruction (R98). -/
inductive HostLine where
  | rd (a : Symbol) (n : Width)
  | wr (a : Symbol) (d : BusData)
  | cmd (i : Instr)
  | waitIdle
  | load (c : Channel) (p : Nat) (vs : List Byte)
  | loadW (c : Channel) (p : Nat) (w : Word)
  | expect (a : Symbol) (v : Word)
  | run (i : Instr)
  deriving DecidableEq, Repr

/-- The write of a command's word to `CMD` (R98); a command out of range has no encoding (R96). -/
def commandWrite (i : Instr) : Option HostOp :=
  if i.wf then some (.access (.write 0x018#22 (.d4 (encode i)))) else none

/-- `WR8 c+p, b0; WR8 c+(p+1), b1; …` (R98). -/
def loadBytes (c : Channel) : Nat → List Byte → Option (List HostOp)
  | _, [] => some []
  | p, v :: vs =>
    match (Symbol.cell c p).offset, loadBytes c (p + 1) vs with
    | some a, some rest => some (.access (.write a (.d1 v)) :: rest)
    | _, _ => none

/-- The accesses a line stands for (R97, R98), or none where an operand has no encoding. `EXPECT` is an `RD32`; its
comparison is the host's own (`expectationMet`). R98 says of `LOADW` "p a multiple of 4" and not what an assembler does
with another p: the line expands all the same, and its write gets a bus error (R64): DESIGN CHOICE
(notes/assumptions/19.md). -/
def HostLine.expand : HostLine → Option (List HostOp)
  | .rd a n => a.offset.map (fun o => [.access (.read o n)])
  | .wr a d => a.offset.map (fun o => [.access (.write o d)])
  | .cmd i => (commandWrite i).map (fun h => [h])
  | .waitIdle => some [.waitIdle]
  | .load c p vs => loadBytes c p vs
  | .loadW c p w => (Symbol.cell c p).offset.map (fun o => [.access (.write o (.d4 w))])
  | .expect a _ => a.offset.map (fun o => [.access (.read o .w4)])
  | .run i => (commandWrite i).map (fun h => [h, .waitIdle])

/-- A host program, line after line (R97). -/
def expandProgram : List HostLine → Option (List HostOp)
  | [] => some []
  | l :: ls =>
    match l.expand, expandProgram ls with
    | some x, some y => some (x ++ y)
    | _, _ => none

/-- The comparison `EXPECT a, v` makes with the response of its read (R98). -/
def expectationMet (v : Word) (e : Event) : Bool := e.response == .data (.d4 v)

/-! ### The host's image duties (60_exceptions.md R231 to R233) -/

/-- One RGBA pixel of the host's image. -/
structure Pixel where
  red : Byte
  green : Byte
  blue : Byte
  alpha : Byte
  deriving DecidableEq, Repr

/-- The sample of a pixel that goes into a plane; alpha goes into none (R231). -/
def Pixel.sample (q : Pixel) : Channel → Byte
  | .r => q.red
  | .g => q.green
  | .b => q.blue

/-- A grayscale pixel holds one value in all three channels (R231). Its alpha, which no plane takes, is a DESIGN CHOICE
(notes/assumptions/20.md). -/
def Pixel.gray (v : Byte) : Pixel := { red := v, green := v, blue := v, alpha := 0xFF#8 }

/-- Loading an image given row after row, so that pixel (x, y) is item y × W + x: it fills the three planes from
cell 0 on (R231). R231 fixes neither the order nor the width of the writes: plane R whole, then G, then B, in rising order,
one byte a write, is a DESIGN CHOICE (notes/assumptions/20.md). -/
def loadImage (pixels : List Pixel) : List HostLine :=
  [.load .r 0 (pixels.map (fun q => q.sample .r)),
   .load .g 0 (pixels.map (fun q => q.sample .g)),
   .load .b 0 (pixels.map (fun q => q.sample .b))]

/-- Output pixel (x, y): cell y × W + x of each plane, with no alpha (R232). -/
def outputPixel (m : Memory) (w x y : Nat) : Option (Byte × Byte × Byte) :=
  match m.r.read (cellIndex w x y), m.g.read (cellIndex w x y), m.b.read (cellIndex w x y) with
  | some vr, some vg, some vb => some (vr, vg, vb)
  | _, _, _ => none

/-- The reads of n pixels from cell p on (R232). R233 fixes neither their order nor their width: pixel after pixel, each R,
then G, then B, one byte a read, is a DESIGN CHOICE (notes/assumptions/20.md). -/
def readImage : Nat → Nat → List HostLine
  | _, 0 => []
  | p, n + 1 => .rd (.cell .r p) .w1 :: .rd (.cell .g p) .w1 :: .rd (.cell .b p) .w1 :: readImage (p + 1) n

/-- The pipeline as a host sequence: load the planes, write `PAL_K`, run GEN_PAL, write `WIDTH` and `HEIGHT`, run
DITHER, read the planes (R233); `WIDTH` before `HEIGHT` is a DESIGN CHOICE (notes/assumptions/20.md). -/
def imageProgram (k : Word) (w h : Half) (pixels : List Pixel) : List HostLine :=
  loadImage pixels ++
    [.wr (.register .palK) (.d4 k), .run .genPal,
     .wr (.register .width) (.d4 (w.setWidth 32)), .wr (.register .height) (.d4 (h.setWidth 32)), .run .dither] ++
    readImage 0 (w.toNat * h.toNat)

/-- The state in which a host program is about to run: its accesses are issued after those already pending
(R75 (a)). This is how a program comes to run from reset (notes/assumptions/5.md). -/
def State.withProgram (s : State) (ops : List HostOp) : State := { s with pending := s.pending ++ ops }

end Sys2Proof.Machine
end

