-- ==== Sys2Proof/Machine/HostText.lean ====
section
/-! DEFINITION. The text of host programs: numbers (00_scope.md R6), symbols, access lines and comments
(30_encoding.md R97), and the pseudo-instruction lines (R98). It describes notation and is no part of the machine's
step. -/

namespace Sys2Proof.Machine

/-! ### Numbers and symbols (R6, R97) -/

/-- A number: decimal, `0x` hexadecimal or `0b` binary; `_` separates digit groups and means nothing (R6).
That it may stand anywhere in a host program's number, and not in a command's operand (`readSample`), is a DESIGN CHOICE
(notes/assumptions/12.md). -/
def readNumber (cs : List Char) : Option Nat :=
  match cs.filter (· != '_') with
  | '0' :: 'x' :: d :: ds => readDigits 16 (d :: ds) 0
  | '0' :: 'b' :: d :: ds => readDigits 2 (d :: ds) 0
  | ds => readDecimal ds

/-- A number below the bound. R97 and R98 do not say what becomes of a host program's number that does not fit its place
(R96 speaks of command operands): it refuses the line and is not cut to its low bits. DESIGN CHOICE
(notes/assumptions/19.md). -/
def readBelow (bound : Nat) (cs : List Char) : Option Nat :=
  match readNumber cs with
  | none => none
  | some n => if n < bound then some n else none

/-- The names of the single registers (R22). -/
def registerNames : List (List Char × Reg) :=
  [(['I', 'D'], .id), (['C', 'A', 'P', 'S'], .caps), (['C', 'T', 'R', 'L'], .ctrl),
   (['S', 'T', 'A', 'T', 'U', 'S'], .status), (['E', 'R', 'R', '_', 'C', 'O', 'D', 'E'], .errCode),
   (['E', 'R', 'R', '_', 'I', 'N', 'F', 'O'], .errInfo), (['C', 'M', 'D'], .cmd),
   (['R', 'E', 'S', 'U', 'L', 'T'], .result), (['W', 'I', 'D', 'T', 'H'], .width),
   (['H', 'E', 'I', 'G', 'H', 'T'], .height), (['P', 'A', 'L', '_', 'K'], .palK),
   (['P', 'A', 'L', '_', 'C', 'O', 'U', 'N', 'T'], .palCount), (['C', 'U', 'R', '_', 'X'], .curX),
   (['C', 'U', 'R', '_', 'Y'], .curY)]

/-- The number between `[` and `]`. -/
def readIndex (cs : List Char) : Option Nat :=
  match cs.reverse with
  | ']' :: ds => readBelow 256 ds.reverse
  | _ => none

/-- A register name, `PAL[i]` or `QLUT[v]` (R97). -/
def readRegister (cs : List Char) : Option Reg :=
  match registerNames.find? (fun row => row.1 == cs) with
  | some row => some row.2
  | none =>
    match cs with
    | 'P' :: 'A' :: 'L' :: '[' :: ds => (readIndex ds).map .pal
    | 'Q' :: 'L' :: 'U' :: 'T' :: '[' :: ds => (readIndex ds).map .qlut
    | _ => none

/-- The plane a letter names. -/
def readChannel (cs : List Char) : Option Channel :=
  if cs = ['R'] then some .r else if cs = ['G'] then some .g else if cs = ['B'] then some .b else none

/-- An address: a number, a register name, or `R+p`, `G+p`, `B+p` (R97). -/
def readSymbol (cs : List Char) : Option Symbol :=
  match cs with
  | c :: '+' :: ds =>
    match readChannel [c], readNumber ds with
    | some ch, some p => some (.cell ch p)
    | _, _ => none
  | _ =>
    match readRegister cs with
    | some r => some (.register r)
    | none => (readBelow (2 ^ 22) cs).map (fun n => .number (BitVec.ofNat 22 n))

/-! ### Lines (R97, R98) -/

/-- The line before its comment (R97). -/
def dropComment (cs : List Char) : List Char := cs.takeWhile (· != ';')

/-- The parts between commas, without the blanks around them. -/
def splitCommas (cs : List Char) : List (List Char) :=
  (cs.foldr (fun c parts =>
    if c = ',' then [] :: parts
    else
      match parts with
      | [] => [[c]]
      | part :: rest => (c :: part) :: rest) [[]]).map trimBlanks

/-- The data of a write of this width; a value that does not fit refuses the line: DESIGN CHOICE
(notes/assumptions/19.md). -/
def readData (n : Width) (cs : List Char) : Option BusData :=
  match n with
  | .w1 => (readBelow (2 ^ 8) cs).map (fun v => .d1 (BitVec.ofNat 8 v))
  | .w2 => (readBelow (2 ^ 16) cs).map (fun v => .d2 (BitVec.ofNat 16 v))
  | .w4 => (readBelow (2 ^ 32) cs).map (fun v => .d4 (BitVec.ofNat 32 v))

/-- `WR… a, v` (R97). -/
def readWrite (n : Width) (args : List (List Char)) : Option HostLine :=
  match args with
  | [a, v] =>
    match readSymbol a, readData n v with
    | some s, some d => some (.wr s d)
    | _, _ => none
  | _ => none

/-- `RD… a` (R97). -/
def readRead (n : Width) (args : List (List Char)) : Option HostLine :=
  match args with
  | [a] => (readSymbol a).map (fun s => .rd s n)
  | _ => none

/-- The bytes of a `LOAD` (R98); a value above 255 refuses the line: DESIGN CHOICE (notes/assumptions/19.md). -/
def readBytes : List (List Char) → Option (List Byte)
  | [] => some []
  | v :: vs =>
    match readBelow (2 ^ 8) v, readBytes vs with
    | some n, some rest => some (BitVec.ofNat 8 n :: rest)
    | _, _ => none

/-- The line a keyword and its operand text stand for (R97, R98). A `LOADW` or `EXPECT` word that does not fit 32 bits, and
a `LOAD` without a byte, are refused: DESIGN CHOICE (notes/assumptions/19.md). -/
def readLine (keyword operands : List Char) : Option HostLine :=
  if keyword = ['W', 'R', '3', '2'] then readWrite .w4 (splitCommas operands)
  else if keyword = ['W', 'R', '1', '6'] then readWrite .w2 (splitCommas operands)
  else if keyword = ['W', 'R', '8'] then readWrite .w1 (splitCommas operands)
  else if keyword = ['R', 'D', '3', '2'] then readRead .w4 (splitCommas operands)
  else if keyword = ['R', 'D', '1', '6'] then readRead .w2 (splitCommas operands)
  else if keyword = ['R', 'D', '8'] then readRead .w1 (splitCommas operands)
  else if keyword = ['C', 'M', 'D'] then (parseLine operands).map .cmd
  else if keyword = ['R', 'U', 'N'] then (parseLine operands).map .run
  else if keyword = ['W', 'A', 'I', 'T', '_', 'I', 'D', 'L', 'E'] then
    if operands = [] then some .waitIdle else none
  else if keyword = ['L', 'O', 'A', 'D'] then
    match splitCommas operands with
    | c :: p :: v :: vs =>
      match readChannel c, readNumber p, readBytes (v :: vs) with
      | some ch, some n, some bytes => some (.load ch n bytes)
      | _, _, _ => none
    | _ => none
  else if keyword = ['L', 'O', 'A', 'D', 'W'] then
    match splitCommas operands with
    | [c, p, w] =>
      match readChannel c, readNumber p, readBelow (2 ^ 32) w with
      | some ch, some n, some v => some (.loadW ch n (BitVec.ofNat 32 v))
      | _, _, _ => none
    | _ => none
  else if keyword = ['E', 'X', 'P', 'E', 'C', 'T'] then
    match splitCommas operands with
    | [a, v] =>
      match readSymbol a, readBelow (2 ^ 32) v with
      | some s, some n => some (.expect s (BitVec.ofNat 32 n))
      | _, _ => none
    | _ => none
  else none

/-- One line of text: no host line if it is blank or a comment, one if it follows R97 or R98, refused otherwise. -/
def parseHostLine (line : List Char) : Option (List HostLine) :=
  match trimBlanks (dropComment line) with
  | [] => some []
  | c :: cs =>
    (readLine ((c :: cs).takeWhile (· != ' ')) (trimBlanks ((c :: cs).dropWhile (· != ' ')))).map (fun l => [l])

/-- A host program's text, line after line, as its accesses (R97, R98). -/
def assembleProgram : List (List Char) → Option (List HostOp)
  | [] => some []
  | line :: rest =>
    match parseHostLine line, assembleProgram rest with
    | some ls, some ops => (expandProgram ls).map (fun x => x ++ ops)
    | _, _ => none

end Sys2Proof.Machine
end

