-- ==== Sys2Proof/Safety.lean ====
section
/-! DEFINITION. What a safe run is: the invariant of the state, the end of a run (70_reset_and_hazards.md R252), and
when a DITHER may be started without a model fault (R185, R245). -/

namespace Sys2Proof.Machine

/-- The next state an outcome holds, if it is one. -/
def next? (o : Host.Outcome State Fault Refusal) : Option State :=
  match o with
  | .next s => some s
  | .fault _ => none
  | .refused _ => none

/-- Every cell 0 … n−1 of all three planes holds a value (R185, R245 (2)). -/
def frameWritten (mem : Memory) (n : Nat) : Prop :=
  ∀ c p, p < n → (mem.read c p).isSome = true

/-- The cursor of a DITHER over a frame of lw × lh pixels: at a pixel of the frame, or past its last row, or at
(0, 0) of an empty frame (R101, R171, R183, R184). -/
def cursorLegal (lw lh px py : Nat) : Prop :=
  (px < lw ∧ py < lh) ∨ (px = 0 ∧ py = lh) ∨ (px = 0 ∧ py = 0 ∧ lw = 0)

/-- The invariant of every state the machine reaches. -/
structure Inv (s : State) : Prop where
  /-- 1 ≤ MAX_PIXELS ≤ 2^20 (R5, R24). -/
  caps : s.cfg.wf
  /-- Each plane lists its cells once, with rising indexes. -/
  canonical : s.mem.wf
  /-- No cell with index ≥ MAX_PIXELS exists (R45). -/
  cellsExist : s.mem.within s.cfg.maxPixels
  /-- "N = 1 never occurs" (R46, R120). -/
  palette : s.palN ≠ 1#32
  /-- ERR = 0 exactly when ERR_CODE is NONE, and then ERR_INFO is 0 (R33, R34). -/
  errorNone : s.err = false → s.errCode = .none ∧ s.errInfo = 0#32
  /-- ERR = 1 means an error is recorded (R31, R33). -/
  errorSome : s.err = true → s.errCode ≠ .none
  /-- DONE is 0 from the acceptance of a command until its completion (R30). -/
  doneIdle : s.busy = true → s.done = false
  /-- "No other opcode can be in `OP`" (R106). -/
  opCommand : ∀ w, s.op = some w → ∃ i, decode w = .ok i
  /-- While no DITHER runs the cursor is (0, 0) or (0, LH) of the last one (R41, R49). -/
  cursorIdle : s.dithering = false → s.px = 0#16 ∧ s.py = s.lh
  /-- A running DITHER's latched dimensions are WIDTH and HEIGHT (D45). -/
  latched : s.dithering = true → s.lw = s.width ∧ s.lh = s.height
  /-- A running DITHER's frame fits the planes (R170). -/
  frameFits : s.dithering = true → latchedFrame s ≤ s.cfg.maxPixels
  /-- A running DITHER's frame holds a value in every cell (R185). -/
  frameHeld : s.dithering = true → frameWritten s.mem (latchedFrame s)
  /-- A running DITHER's cursor is in or just past its frame (R171). -/
  cursor : s.dithering = true → cursorLegal s.lw.toNat s.lh.toNat s.px.toNat s.py.toNat

/-- A run is at its end: the host program has no more accesses and BUSY = 0 (R252). -/
def finished (s : State) : Prop := s.pending = [] ∧ s.busy = false

/-- A step is safe if it is no model fault and no refusal. -/
def safeStep (s : State) : Prop := ∃ t, step s = .next t

/-- Pixel steps of the running DITHER still to come (R171). -/
def pixelsLeft (s : State) : Nat :=
  if s.px.toNat < s.lw.toNat ∧ s.py.toNat < s.lh.toNat then
    latchedFrame s - cellIndex s.lw.toNat s.px.toNat s.py.toNat
  else 0

end Sys2Proof.Machine
end

