-- ==== Sys2Proof/Certificates/Slice0/Obligations.lean ====
section
/-! DEFINITION. The statements for the provers. The definitions under Sys2Proof.Spec write the numeric rules out again,
on numbers and images, without the machine's operations on planes. -/

namespace Sys2Proof.Spec

open Sys2Proof.Machine

/-- Q(v) of R126: the scan of R125 on the palette sequence of R121. -/
def level (n v : Nat) : Nat := nearest (palSeq n) (v : Int)

/-- clamp(v + d, 0, 255), by cases (R150). -/
def satSum (v : Nat) (d : Int) : Nat :=
  if (v : Int) + d < 0 then 0 else if 255 < (v : Int) + d then 255 else ((v : Int) + d).toNat

/-- sign(e × w) × ⌊|e × w| / 16⌋ (R11, R174). -/
def scaled (e w : Int) : Int := if 0 ≤ e * w then e * w / 16 else -(-(e * w) / 16)

/-- The pixel step at (x, y) on an image of lw × lh samples, given by column and row (R172, R173). -/
def pixelImage (n lw lh x y : Nat) (f : Nat → Nat → Nat) (x' y' : Nat) : Nat :=
  let err : Int := (f x y : Int) - (level n (f x y) : Int)
  if x' = x ∧ y' = y then level n (f x y)
  else if x' = x + 1 ∧ y' = y ∧ x + 1 < lw then satSum (f x' y') (scaled err 7)
  else if x' + 1 = x ∧ y' = y + 1 ∧ y + 1 < lh then satSum (f x' y') (scaled err 3)
  else if x' = x ∧ y' = y + 1 ∧ y + 1 < lh then satSum (f x' y') (scaled err 5)
  else if x' = x + 1 ∧ y' = y + 1 ∧ y + 1 < lh ∧ x + 1 < lw then satSum (f x' y') (scaled err 1)
  else f x' y'

/-- The traversal in raster order over the whole image (R171). -/
def ditherImage (n lw lh : Nat) (f : Nat → Nat → Nat) : Nat → Nat → Nat :=
  (List.range (lw * lh)).foldl (fun g k => pixelImage n lw lh (k % lw) (k / lw) g) f

/-- The image a plane holds for rows of lw samples: sample `[y][x]` is cell y × lw + x (R45). -/
def imageOf (mem : Memory) (c : Channel) (lw x y : Nat) : Nat := ((mem.read c (y * lw + x)).getD 0#8).toNat

/-- A DITHER has just been accepted and the host has nothing more to do until it completes (R101, R252). -/
def ditherStarted (s : State) : Prop :=
  s.op = some 0x00000002#32 ∧ s.pending = [] ∧ s.px = 0#16 ∧ s.py = 0#16

/-- The run of a DITHER to its completion: LW × LH pixel steps and one completion step (R171). -/
def ditherRun (s : State) : Host.Outcome State Fault Refusal :=
  Host.Core.run Sys2Proof.core (s.lw.toNat * s.lh.toNat + 1) s

/-- A write of the word to `CMD`: `MemWrite(0x018, 4, w)` (R100). -/
def writeCmd (w : Word) : Access := .write 0x018#22 (.d4 w)

/-- One more access in the host's log. -/
def logged (x : Access) (r : Response) (s : State) : List Event := { access := x, response := r } :: s.log

/-- Byte k of an access's value: bits [8k+7:8k] (R62). -/
def byteOf (d : BusData) (k : Nat) : Byte :=
  match d with
  | .d1 v => v.extractLsb' (8 * k) 8
  | .d2 v => v.extractLsb' (8 * k) 8
  | .d4 v => v.extractLsb' (8 * k) 8

end Sys2Proof.Spec

open Sys2Proof Sys2Proof.Machine Sys2Proof.Spec

/-! ### Encoding (30_encoding.md) -/

/-- Decoding an encoded command gives it back, with every operand at every value R96 admits. -/
def Obligations.DecodeInvertsEncode : Prop := ∀ i : Instr, i.wf = true → decode (encode i) = .ok i

/-- Every accepted word is the encoding of the well-formed command it decodes to: no two words are one command and no bit
is dropped. -/
def Obligations.EncodeInvertsDecode : Prop :=
  ∀ (w : Word) (i : Instr), decode w = .ok i → i.wf = true ∧ encode i = w

/-- The opcode map of R93: a word encodes a command exactly when `w AND mask = match`, and its operands are the fields of
R92. -/
def Obligations.OpcodeMapDecodes : Prop :=
  ∀ w : Word,
    (w &&& 0xFFFFFFFF#32 = 0x00000000#32 ↔ decode w = .ok .nop) ∧
    (w &&& 0xFFFFFFFF#32 = 0x00000001#32 ↔ decode w = .ok .genPal) ∧
    (w &&& 0xFFFFFFFF#32 = 0x00000002#32 ↔ decode w = .ok .dither) ∧
    (w &&& 0xFFFF00FF#32 = 0x00000003#32 ↔ decode w = .ok (.quant (w.toNat / 256 % 256))) ∧
    (w &&& 0xFF0000FF#32 = 0x00000004#32 ↔
      decode w = .ok (.satadd (w.toNat / 256 % 256)
        (if w.toNat / 65536 % 256 < 128 then ((w.toNat / 65536 % 256 : Nat) : Int)
          else ((w.toNat / 65536 % 256 : Nat) : Int) - 256)))

/-- The rejected words (R94, R95): an opcode 0x05..0xFF is an ILLEGAL_OPCODE whatever the other bits are; a valid opcode
with a bit above its format's fields is a RESERVED_BITS; every other word is a command. -/
def Obligations.RejectedWords : Prop :=
  ∀ w : Word,
    (decode w = .illegalOpcode ↔ 5 ≤ w.toNat % 256) ∧
    (decode w = .reservedBits ↔
      (w.toNat % 256 ≤ 2 ∧ 2 ^ 8 ≤ w.toNat) ∨ (w.toNat % 256 = 3 ∧ 2 ^ 16 ≤ w.toNat) ∨
        (w.toNat % 256 = 4 ∧ 2 ^ 24 ≤ w.toNat)) ∧
    ((∃ i, decode w = .ok i) ↔
      (w.toNat % 256 ≤ 2 ∧ w.toNat < 2 ^ 8) ∨ (w.toNat % 256 = 3 ∧ w.toNat < 2 ^ 16) ∨
        (w.toNat % 256 = 4 ∧ w.toNat < 2 ^ 24))

/-- Words written out from R93 and R96 decode to their commands: `QUANT 191` is 0x0000_BF03 and `SATADD 200, -128` is
0x0080_C804. -/
def Obligations.WordsWrittenOutDecode : Prop :=
  decode 0b00000000000000000000000000000000#32 = .ok .nop ∧
  decode 0b00000000000000000000000000000001#32 = .ok .genPal ∧
  decode 0b00000000000000000000000000000010#32 = .ok .dither ∧
  decode 0b00000000000000001011111100000011#32 = .ok (.quant 191) ∧
  decode 0b00000000100000001100100000000100#32 = .ok (.satadd 200 (-128)) ∧
  decode 0b00000000011111111000000100000100#32 = .ok (.satadd 129 127)

/-- A command's line in the syntax of R96 assembles to its word. -/
def Obligations.AssembledLineGivesItsWord : Prop :=
  ∀ i : Instr, i.wf = true → assembleLine (printInstr i) = some (encode i)

/-- A disassembler prints a command by R96, and a rejected word as `.illegal 0x<word>` or `.reserved 0x<word>` (R99). -/
def Obligations.DisassemblyShowsRejection : Prop :=
  ∀ w : Word,
    (∀ i, decode w = .ok i → disassemble w = printInstr i) ∧
    (decode w = .illegalOpcode → ∃ ds, disassemble w = ['.', 'i', 'l', 'l', 'e', 'g', 'a', 'l', ' ', '0', 'x'] ++ ds ∧ ds.length = 8 ∧
      readDigits 16 ds 0 = some w.toNat) ∧
    (decode w = .reservedBits → ∃ ds, disassemble w = ['.', 'r', 'e', 's', 'e', 'r', 'v', 'e', 'd', ' ', '0', 'x'] ++ ds ∧ ds.length = 8 ∧
      readDigits 16 ds 0 = some w.toNat)

/-! ### Steps (00_scope.md R12, 40_command.md R104, R106) -/

/-- When it is the engine's move and the word in `OP` decodes to i, the step is `exec i`. The engine moves when the host has
nothing pending; where both agents could move, the schedule's head says which does and is used up (the model's own
convention, notes/assumptions/4.md). -/
def Obligations.StepRunsDecodedCommand : Prop :=
  ∀ (s : State) (w : Word) (i : Instr), s.op = some w → decode w = .ok i →
    (s.pending = [] → step s = exec i s) ∧
    (s.pending ≠ [] → s.schedule = [] → step s = exec i s) ∧
    (∀ sched, s.pending ≠ [] → s.schedule = .engine :: sched → step s = exec i { s with schedule := sched })

/-- When it is the host's move, the step is its next access, taken in program order (R75 (a)). -/
def Obligations.HostMovesInProgramOrder : Prop :=
  ∀ (s : State) (h : HostOp) (rest : List HostOp), s.pending = h :: rest →
    (s.op = none → step s = hostStep h { s with pending := rest }) ∧
    (∀ w sched, s.op = some w → s.schedule = .host :: sched →
      step s = hostStep h { s with pending := rest, schedule := sched }) ∧
    (∀ x t, h = .access x → hostStep h t = hostAccess x t)

/-- With no command running and no host access pending the block stays as it is (R244, R252). -/
def Obligations.IdleBlockStays : Prop :=
  ∀ s : State, s.op = none → s.pending = [] → step s = .next s

/-- A command's word placed in the machine is run by the very next step, on the state its acceptance leaves. -/
def Obligations.PlacedCommandRunsNext : Prop :=
  ∀ (i : Instr) (s : State), i.wf = true →
    decodeTableWord 32 (encode i).toNat = some i ∧
    step (s.withFetchWord 32 (encode i).toNat) = exec i (accept (encode i) s)

/-- The poll loop `WAIT_IDLE` reads `STATUS`, which is exact, logs it, and stands again at the head of the host's program
exactly while BUSY is 1 (R98). -/
def Obligations.PollLoopWaitsForIdle : Prop :=
  ∀ s : State,
    hostStep .waitIdle s =
      .next { s with
        pending := if s.busy = true then .waitIdle :: s.pending else s.pending
        log := logged (.read 0x00C#22 .w4) (.data (.d4 (statusWord s))) s }

/-- The host's wait for `IRQ` is passed exactly where IE and one of DONE and ERR are 1, and changes nothing but the host's
program (R214, R230). With IE = 1 and ERR = 0 a host that waits for `IRQ` while a command runs gets past the wait with
BUSY = 0 and DONE = 1, after finitely many steps whatever the interleaving (R76, R104); that the wait is no access and
how the schedule counts its turns are the model's own conventions (notes/assumptions/4.md, 18.md). -/
def Obligations.InterruptWaitOrdersResults : Prop :=
  (∀ s : State, hostStep .waitIrq s =
    .next { s with
      pending := if s.ie = true ∧ (s.done = true ∨ s.err = true) then s.pending else .waitIrq :: s.pending }) ∧
  ∀ (s : State) (w : Word) (rest : List HostOp), Inv s → s.op = some w → s.ie = true → s.err = false →
    s.pending = .waitIrq :: rest →
    ∃ k t, k ≤ s.lw.toNat * s.lh.toNat + s.schedule.length + 2 ∧ Host.Core.run Sys2Proof.core k s = .next t ∧
      t.pending = rest ∧ t.op = none ∧ t.done = true ∧ t.err = false ∧ t.irq = true

/-- The lines of a host program and the accesses they stand for (R97, R98): a register's name is its offset, a number is
itself and `c+p` is cell p of plane c; `RD` and `WR` are one access of their width, `CMD` and `RUN` write the command's
word, `WAIT_IDLE` is the poll loop, `LOADW` is one 4-byte write, `LOAD` one 1-byte write a cell in rising order, `EXPECT`
a read; a command out of range has no encoding and refuses the line (R96). R98 gives `LOADW` only for p a multiple of 4:
that the line expands for every other p too is the model's choice (notes/assumptions/19.md). -/
def Obligations.HostLinesExpand : Prop :=
  (∀ (r : Reg) (a : Nat), r.offset = some a → regAt a = r ∧ a % 4 = 0 ∧ a < 0x1000) ∧
  (∀ i : Instr, i.wf = true →
    (HostLine.cmd i).expand = some [.access (writeCmd (encode i))] ∧
    (HostLine.run i).expand = some [.access (writeCmd (encode i)), .waitIdle]) ∧
  (∀ i : Instr, i.wf = false → (HostLine.cmd i).expand = none ∧ (HostLine.run i).expand = none) ∧
  (∀ (c : Channel) (p : Nat) (w : Word), p < 0x100000 →
    (HostLine.loadW c p w).expand = some [.access (.write (BitVec.ofNat 22 (planeBase c + p)) (.d4 w))]) ∧
  (∀ (c : Channel) (p : Nat) (vs : List Byte), p + vs.length ≤ 0x100000 →
    ∃ ops, (HostLine.load c p vs).expand = some ops ∧ ops.length = vs.length ∧
      ∀ (k : Nat) (v : Byte), vs[k]? = some v → ops[k]? = some (HostOp.access (.write (BitVec.ofNat 22 (planeBase c + (p + k))) (.d1 v)))) ∧
  (∀ (r : Reg) (a : Nat) (v : Word), r.offset = some a →
    (HostLine.expect (.register r) v).expand = some [.access (.read (BitVec.ofNat 22 a) .w4)]) ∧
  (∀ (a : Symbol) (o : Offset), a.offset = some o →
    (∀ n : Width, (HostLine.rd a n).expand = some [.access (.read o n)]) ∧
    (∀ d : BusData, (HostLine.wr a d).expand = some [.access (.write o d)])) ∧
  (∀ o : Offset, (Symbol.number o).offset = some o) ∧
  (∀ (r : Reg) (a : Nat), r.offset = some a → (Symbol.register r).offset = some (BitVec.ofNat 22 a)) ∧
  (∀ (c : Channel) (p : Nat), p < 0x100000 → (Symbol.cell c p).offset = some (BitVec.ofNat 22 (planeBase c + p))) ∧
  HostLine.waitIdle.expand = some [.waitIdle]

/-- Loading an image writes the red, green and blue of pixel k = y × W + x into cell k of planes R, G and B, one byte each,
and nothing of alpha (R231); output pixel (x, y) is made of cell y × W + x of each plane (R232). That the writes are one
byte each and plane R's come first, then G's, then B's, is the model's choice (notes/assumptions/20.md). -/
def Obligations.ImageLoadWritesEveryPixel : Prop :=
  (∀ pixels : List Pixel, pixels.length ≤ 0x100000 →
    ∃ ops, expandProgram (loadImage pixels) = some ops ∧ ops.length = 3 * pixels.length ∧
      ∀ (k : Nat) (q : Pixel), pixels[k]? = some q →
        ops[k]? = some (HostOp.access (.write (BitVec.ofNat 22 (0x100000 + k)) (.d1 q.red))) ∧
        ops[pixels.length + k]? = some (HostOp.access (.write (BitVec.ofNat 22 (0x200000 + k)) (.d1 q.green))) ∧
        ops[2 * pixels.length + k]? = some (HostOp.access (.write (BitVec.ofNat 22 (0x300000 + k)) (.d1 q.blue)))) ∧
  (∀ (m : Memory) (w x y : Nat) (vr vg vb : Byte),
    outputPixel m w x y = some (vr, vg, vb) ↔
      m.read .r (y * w + x) = some vr ∧ m.read .g (y * w + x) = some vg ∧ m.read .b (y * w + x) = some vb)

/-! ### Commands (40_command.md, 41_palette_quantizer.md, 42_saturating_add.md, 43_dither.md) -/

/-- NOP completes and changes nothing else (R103, R105). -/
def Obligations.NopCompletes : Prop :=
  ∀ s : State, exec .nop s = .next { s with op := none, done := true }

/-- GEN_PAL completes; N takes max(K, 2), and `PAL_COUNT`, `PAL[i]`, `QLUT[v]` and PAL_VALID are those of this N; nothing
else changes (R120, R121, R129). -/
def Obligations.GenPalBuildsPalette : Prop :=
  ∀ s : State, ∃ t, exec .genPal s = .next t ∧
    t = { s with palN := t.palN, op := none, done := true } ∧
    t.palN.toNat = max s.palK.toNat 2 ∧
    t.palValid = true ∧
    (readReg .palCount t).toNat = max s.palK.toNat 2 ∧
    (∀ i, i < 256 → (readReg (.pal i) t).toNat =
      if i < max s.palK.toNat 2 then i * 255 / (max s.palK.toNat 2 - 1) else 0) ∧
    (∀ v, v < 256 → (readReg (.qlut v) t).toNat = level (max s.palK.toNat 2) v)

/-- QUANT v completes; `RESULT` takes Q(v), the scan of R125 on the palette of the current N; nothing else changes (R126,
R130). -/
def Obligations.QuantWritesNearestLevel : Prop :=
  ∀ (v : Nat) (s : State), v ≤ 255 → ∃ t, exec (.quant v) s = .next t ∧
    t = { s with result := t.result, op := none, done := true } ∧
    t.result.toNat = level s.palN.toNat v ∧
    (s.palN = 0#32 → t.result = 0#8) ∧
    (256 ≤ s.palN.toNat → t.result.toNat = v)

/-- SATADD v, d completes; `RESULT` takes clamp(v + d, 0, 255); nothing else changes (R150, R152). -/
def Obligations.SataddWritesClampedSum : Prop :=
  ∀ (v : Nat) (d : Int) (s : State), v ≤ 255 → -128 ≤ d → d ≤ 127 → ∃ t, exec (.satadd v d) s = .next t ∧
    t = { s with result := t.result, op := none, done := true } ∧
    (t.result.toNat : Int) = min (max ((v : Int) + d) 0) 255

/-- The pixel step of a DITHER at (x, y) = (PX, PY): in each plane the cell takes Q(old), each of the four neighbours whose
guard holds takes its share of the error with saturation, every other cell is unchanged, the cursor moves on in raster
order, and no other register changes (R172 to R176). -/
def Obligations.DitherPixelStepDiffuses : Prop :=
  ∀ s : State, s.px.toNat < s.lw.toNat → s.py.toNat < s.lh.toNat →
    (∀ c p, p < s.lw.toNat * s.lh.toNat → (s.mem.read c p).isSome = true) →
    ∃ t, exec .dither s = .next t ∧
      t = { s with mem := t.mem, px := t.px, py := t.py } ∧
      t.px.toNat = (if s.px.toNat + 1 < s.lw.toNat then s.px.toNat + 1 else 0) ∧
      t.py.toNat = (if s.px.toNat + 1 < s.lw.toNat then s.py.toNat else s.py.toNat + 1) ∧
      ∀ c old, s.mem.read c (s.py.toNat * s.lw.toNat + s.px.toNat) = some old → ∀ q,
        let p := s.py.toNat * s.lw.toNat + s.px.toNat
        let new := level s.palN.toNat old.toNat
        let err : Int := (old.toNat : Int) - (new : Int)
        let added : Int → Option Byte := fun w =>
          (s.mem.read c q).map (fun b => BitVec.ofNat 8 (satSum b.toNat (scaled err w)))
        t.mem.read c q =
          if q = p then some (BitVec.ofNat 8 new)
          else if q = p + 1 ∧ s.px.toNat + 1 < s.lw.toNat then added 7
          else if q + 1 = p + s.lw.toNat ∧ s.py.toNat + 1 < s.lh.toNat ∧ 0 < s.px.toNat then added 3
          else if q = p + s.lw.toNat ∧ s.py.toNat + 1 < s.lh.toNat then added 5
          else if q = p + s.lw.toNat + 1 ∧ s.py.toNat + 1 < s.lh.toNat ∧ s.px.toNat + 1 < s.lw.toNat then added 1
          else s.mem.read c q

/-- With no pixel left the engine step of a DITHER is its completion: the cursor takes (0, LH), BUSY falls and DONE is set;
nothing else changes (R183). -/
def Obligations.DitherCompletesAfterLastPixel : Prop :=
  ∀ s : State, ¬(s.px.toNat < s.lw.toNat ∧ s.py.toNat < s.lh.toNat) →
    exec .dither s = .next { s with px := 0#16, py := s.lh, op := none, done := true }

/-- An engine step leaves alone what its command does not own: no command touches the configuration, the errors, the
interrupt enable, the latches or the host; only GEN_PAL changes N, only QUANT and SATADD change `RESULT`, only DITHER changes
the planes and the cursor, and a DITHER changes no cell with index ≥ LW × LH (R36, R41, R74, R181). -/
def Obligations.CommandsLeaveTheRestAlone : Prop :=
  ∀ (i : Instr) (s t : State), exec i s = .next t →
    (t.cfg = s.cfg ∧ t.ie = s.ie ∧ t.err = s.err ∧ t.errCode = s.errCode ∧ t.errInfo = s.errInfo ∧
      t.width = s.width ∧ t.height = s.height ∧ t.palK = s.palK ∧ t.lw = s.lw ∧ t.lh = s.lh ∧
      t.pending = s.pending ∧ t.log = s.log ∧ t.schedule = s.schedule ∧ t.draws = s.draws) ∧
    (i ≠ .genPal → t.palN = s.palN) ∧
    ((∀ v, i ≠ .quant v) → (∀ v d, i ≠ .satadd v d) → t.result = s.result) ∧
    (i ≠ .dither → t.mem = s.mem ∧ t.px = s.px ∧ t.py = s.py) ∧
    (∀ c p, s.lw.toNat * s.lh.toNat ≤ p → t.mem.read c p = s.mem.read c p)

/-- A DITHER with WIDTH = 0 or HEIGHT = 0 is accepted while idle, and its one engine step is the completion: no cell is
touched, the cursor is (0, HEIGHT) and DONE is 1 (R184). -/
def Obligations.EmptyFrameDitherTouchesNothing : Prop :=
  ∀ s : State, s.op = none → (s.width = 0#16 ∨ s.height = 0#16) →
    ∃ t u, hostAccess (writeCmd 0x00000002#32) s = .next t ∧ exec .dither t = .next u ∧
      u = { s with op := none, done := true, lw := s.width, lh := s.height, px := 0#16, py := s.height
                   log := logged (writeCmd 0x00000002#32) .ok s }

/-! ### Submission (40_command.md R100 to R102, 60_exceptions.md R201 to R209) -/

/-- The rejections of a command submission, in their order of priority: CMD_WHILE_BUSY, ILLEGAL_OPCODE, RESERVED_BITS,
DIM_RANGE. Each records the error with the word by the rule of R207 and changes nothing else. -/
def Obligations.SubmissionRejectionOrder : Prop :=
  ∀ (w : Word) (s : State),
    let rejected : ErrCode → Host.Outcome State Fault Refusal := fun code =>
      .next { s with
        errCode := if s.err = true then s.errCode else code
        errInfo := if s.err = true then s.errInfo else w
        err := true
        log := logged (writeCmd w) .ok s }
    (s.op ≠ none → hostAccess (writeCmd w) s = rejected .cmdWhileBusy) ∧
    (s.op = none → 5 ≤ w.toNat % 256 → hostAccess (writeCmd w) s = rejected .illegalOpcode) ∧
    (s.op = none →
      (w.toNat % 256 ≤ 2 ∧ 2 ^ 8 ≤ w.toNat) ∨ (w.toNat % 256 = 3 ∧ 2 ^ 16 ≤ w.toNat) ∨
        (w.toNat % 256 = 4 ∧ 2 ^ 24 ≤ w.toNat) →
      hostAccess (writeCmd w) s = rejected .reservedBits) ∧
    (s.op = none → w = 0x00000002#32 → s.cfg.maxPixels < s.width.toNat * s.height.toNat →
      hostAccess (writeCmd w) s = rejected .dimRange)

/-- Acceptance (R101): a command's word enters `OP` and DONE falls; a DITHER also latches its dimensions and sets the cursor
to (0, 0). Nothing else changes: ERR, `ERR_CODE` and `ERR_INFO` stay. -/
def Obligations.AcceptanceStartsTheCommand : Prop :=
  ∀ (i : Instr) (s : State), i.wf = true → s.op = none →
    (i ≠ .dither → hostAccess (writeCmd (encode i)) s =
      .next { s with op := some (encode i), done := false, log := logged (writeCmd (encode i)) .ok s }) ∧
    (i = .dither → s.width.toNat * s.height.toNat ≤ s.cfg.maxPixels →
      (∀ c p, p < s.width.toNat * s.height.toNat → (s.mem.read c p).isSome = true) →
      hostAccess (writeCmd (encode i)) s =
        .next { s with
          op := some 0x00000002#32, done := false, lw := s.width, lh := s.height, px := 0#16, py := 0#16
          log := logged (writeCmd (encode i)) .ok s })

/-- A DITHER submitted over a frame with a cell that holds no value has no meaning: the machine faults at acceptance with the
cell of the smallest plane (R < G < B) and then the smallest index (R185). -/
def Obligations.UnwrittenFrameFaults : Prop :=
  ∀ (s : State) (c : Channel) (p : Nat), s.op = none →
    s.width.toNat * s.height.toNat ≤ s.cfg.maxPixels →
    p < s.width.toNat * s.height.toNat → s.mem.read c p = none →
    (∀ q, q < p → (s.mem.read c q).isSome = true) →
    (∀ q, q < s.width.toNat * s.height.toNat → (c = .g ∨ c = .b) → (s.mem.read .r q).isSome = true) →
    (∀ q, q < s.width.toNat * s.height.toNat → c = .b → (s.mem.read .g q).isSome = true) →
    hostAccess (writeCmd 0x00000002#32) s = .fault (.unwritten c p)

/-! ### Status, errors and the interrupt (10_state.md R28, R48; 60_exceptions.md R207, R212 to R215) -/

/-- The reads of `STATUS`, `ERR_CODE`, `ERR_INFO` and `CTRL` as numbers: BUSY, DONE, ERR and PAL_VALID are bits 0 to 3, the
codes are those of R201, and they are exact whatever BUSY is (R25, R28, R29, R32 to R34). -/
def Obligations.StatusRegistersRead : Prop :=
  ∀ s : State,
    let bit : Bool → Nat := fun b => if b = true then 1 else 0
    let reads : Offset → Word → Prop := fun a v =>
      hostAccess (.read a .w4) s = .next { s with log := logged (.read a .w4) (.data (.d4 v)) s }
    (∃ v, reads 0x00C#22 v ∧
      v.toNat = bit s.op.isSome + 2 * bit s.done + 4 * bit s.err + 8 * (if s.palN.toNat = 0 then 0 else 1)) ∧
    (∃ v, reads 0x008#22 v ∧ v.toNat = bit s.ie) ∧
    (∃ v, reads 0x010#22 v ∧ v.toNat =
      match s.errCode with
      | .none => 0
      | .illegalOpcode => 1
      | .reservedBits => 2
      | .cmdWhileBusy => 3
      | .writeWhileBusy => 4
      | .dimRange => 5) ∧
    reads 0x014#22 s.errInfo

/-- A write to `STATUS` is performed whatever BUSY is: bit 1 clears DONE, bit 2 clears ERR, `ERR_CODE` and `ERR_INFO`, and
nothing else is written (R28, R212). -/
def Obligations.StatusWriteClears : Prop :=
  ∀ (v : Word) (s : State),
    hostAccess (.write 0x00C#22 (.d4 v)) s =
      .next { s with
        done := if v.toNat / 2 % 2 = 1 then false else s.done
        err := if v.toNat / 4 % 2 = 1 then false else s.err
        errCode := if v.toNat / 4 % 2 = 1 then .none else s.errCode
        errInfo := if v.toNat / 4 % 2 = 1 then 0#32 else s.errInfo
        log := logged (.write 0x00C#22 (.d4 v)) .ok s }

/-- `IRQ` after any step: it is high exactly when IE is set with DONE or ERR; an access that gets a bus error never changes it;
a completion drives it to IE (R48, R215). -/
def Obligations.IrqFollowsItsBits : Prop :=
  ∀ s t : State, step s = .next t →
    (t.irq = true ↔ t.ie = true ∧ (t.done = true ∨ t.err = true)) ∧
    (t.hostFaults.length ≠ s.hostFaults.length → t.irq = s.irq) ∧
    (s.busy = true → t.busy = false → t.done = true → t.irq = s.ie)

/-! ### Palette, quantizer and adder laws -/

/-- Endpoints and strict increase: for N ≥ 2 the first entry is 0 and the last 255; for 2 ≤ N ≤ 256 the N entries strictly
increase (R122, R123). -/
def Obligations.PaletteEndpointsAndIncrease : Prop :=
  ∀ n : Nat, 2 ≤ n →
    (palSeq n).length = n ∧ (palSeq n)[0]? = some 0 ∧ (palSeq n)[n - 1]? = some 255 ∧
    (n ≤ 256 → (palSeq n).Pairwise (· < ·))

/-- Large palettes: for N ≥ 256 the set of values is exactly 0..255; for N ≥ 257 the sequence is non-decreasing and some value
stands at two consecutive indexes (R124). -/
def Obligations.LargePaletteHoldsEveryLevel : Prop :=
  ∀ n : Nat, 256 ≤ n →
    (∀ v, v ∈ palSeq n ↔ v ≤ 255) ∧
    (257 ≤ n → (palSeq n).Pairwise (· ≤ ·) ∧
      ∃ i v, (palSeq n)[i]? = some v ∧ (palSeq n)[i + 1]? = some v) ∧
    (n = 257 → (palSeq n).take 4 = [0, 0, 1, 2])

/-- The machine's quantizer is characterised as R127 says, for N ≥ 2: it is the smallest closest palette value; and with a the
largest palette value not above v and b the smallest above it, it is a if there is no b or v ≤ ⌊(a + b)/2⌋, and b otherwise. -/
def Obligations.QuantizerIsSmallestClosestLevel : Prop :=
  ∀ n v : Nat, 2 ≤ n → v ≤ 255 →
    quantize n v = level n v ∧
    (quantize n v ∈ palSeq n ∧
      ∀ p ∈ palSeq n, distance v (quantize n v) ≤ distance v p ∧
        (distance v p = distance v (quantize n v) → quantize n v ≤ p)) ∧
    ∀ a, a ∈ palSeq n → a ≤ v → (∀ p ∈ palSeq n, p ≤ v → p ≤ a) →
      ((∀ p ∈ palSeq n, p ≤ v) → quantize n v = a) ∧
      ∀ b, b ∈ palSeq n → v < b → (∀ p ∈ palSeq n, v < p → b ≤ p) →
        quantize n v = if v ≤ (a + b) / 2 then a else b

/-- The quantizer properties (a) to (f) of R128. -/
def Obligations.QuantizerProperties : Prop :=
  (∀ n v, 2 ≤ n → v ≤ 255 → quantize n v ∈ palSeq n ∧ quantize n v ≤ 255) ∧
  (∀ n p, 2 ≤ n → p ∈ palSeq n → quantize n p = p) ∧
  (∀ n v w, v ≤ w → w ≤ 255 → quantize n v ≤ quantize n w) ∧
  (∀ n v, 256 ≤ n → v ≤ 255 → quantize n v = v) ∧
  (∀ n g, 2 ≤ n →
    (∀ i, i + 1 < n → palEntry n (i + 1) - palEntry n i ≤ g) →
    (∃ i, i + 1 < n ∧ palEntry n (i + 1) - palEntry n i = g) →
    (∀ v : Nat, v ≤ 255 → distance v (quantize n v) ≤ g / 2) ∧
      ∃ v : Nat, v ≤ 255 ∧ distance v (quantize n v) = g / 2) ∧
  (∀ v : Nat, (v : Int) - (quantize 0 v : Int) = v)

/-- The decision thresholds of R131: for K = 0 to 5, 8 and 16 the inputs of each entry begin at the listed ones; for K ≥ 256 the
quantizer is the identity. -/
def Obligations.DecisionThresholds : Prop :=
  let steps : List (Nat × Nat) → Nat → Nat := fun rows v =>
    rows.foldl (fun best row => if row.1 ≤ v then row.2 else best) 0
  ∀ v, v < 256 →
    (∀ k, k ≤ 2 → quantize (max k 2) v = steps [(0, 0), (128, 255)] v) ∧
    quantize 3 v = steps [(0, 0), (64, 127), (192, 255)] v ∧
    quantize 4 v = steps [(0, 0), (43, 85), (128, 170), (213, 255)] v ∧
    quantize 5 v = steps [(0, 0), (32, 63), (96, 127), (160, 191), (224, 255)] v ∧
    quantize 8 v =
      steps [(0, 0), (19, 36), (55, 72), (91, 109), (128, 145), (164, 182), (201, 218), (237, 255)] v ∧
    quantize 16 v =
      steps [(0, 0), (9, 17), (26, 34), (43, 51), (60, 68), (77, 85), (94, 102), (111, 119), (128, 136),
        (145, 153), (162, 170), (179, 187), (196, 204), (213, 221), (230, 238), (247, 255)] v ∧
    (∀ n, 256 ≤ n → quantize n v = v)

/-- `sat_add8(v, d)` is clamp(v + d, 0, 255) on integers (R150), max(v − 128, 0) for d = −128 (R151), and has the laws (a) to
(e) of R153. -/
def Obligations.SaturatingAddLaws : Prop :=
  (∀ (v : Nat) (d : Int), v ≤ 255 → -128 ≤ d → d ≤ 127 → (satAdd8 v d : Int) = min (max ((v : Int) + d) 0) 255) ∧
  (∀ v : Nat, v ≤ 255 → (satAdd8 v (-128) : Int) = max ((v : Int) - 128) 0) ∧
  (∀ v, v ≤ 255 → satAdd8 v 0 = v) ∧
  (∀ v w d e, v ≤ w → w ≤ 255 → -128 ≤ d → d ≤ e → e ≤ 127 → satAdd8 v d ≤ satAdd8 w e) ∧
  (∀ v d, satAdd8 v d ≤ 255) ∧
  (satAdd8 (satAdd8 250 10) (-10) = 245 ∧ satAdd8 (satAdd8 250 (-10)) 10 = 250) ∧
  (∀ (v : Nat) (d : Int), 0 ≤ (v : Int) + d → (v : Int) + d ≤ 255 → (satAdd8 v d : Int) = v + d)

/-- The delta is the product divided by 16 with truncation toward zero (R174), and for the errors a pixel step can meet it is
within the bound R175 gives each weight, so its narrowing to 8 bits changes nothing (R175, R177). -/
def Obligations.DeltaTruncatesWithinBounds : Prop :=
  (∀ e w : Int, delta e w = scaled e w) ∧
  (delta (-100) 7 = -43 ∧ delta (-15) 1 = 0) ∧
  (∀ (n old : Nat) (e : Int), old ≤ 255 → e = (old : Int) - (quantize n old : Int) →
    (-255 ≤ e ∧ e ≤ 255) ∧
    (-111 ≤ delta e 7 ∧ delta e 7 ≤ 111) ∧ (-79 ≤ delta e 5 ∧ delta e 5 ≤ 79) ∧
    (-47 ≤ delta e 3 ∧ delta e 3 ≤ 47) ∧ (-15 ≤ delta e 1 ∧ delta e 1 ≤ 15) ∧
    ∀ w ∈ [(7 : Int), 5, 3, 1], (BitVec.ofInt 8 (delta e w)).toInt = delta e w)

/-! ### The host interface (20_memory.md, 70_reset_and_hazards.md) -/

/-- Which accesses get a bus error, and that they change no state of the block: register window accesses that are not 4 bytes
wide at a 4-aligned offset, misaligned plane accesses, unmapped offsets, and plane accesses with a byte on a cell that does
not exist. Every other access gets none, and stays within one window (R63 to R66). -/
def Obligations.BusErrorsChangeNothing : Prop :=
  ∀ (x : Access) (s : State),
    let a := x.offset.toNat
    let n := x.width.bytes
    let refused : Prop :=
      (a ≤ 0xFFF ∧ (n ≠ 4 ∨ a % 4 ≠ 0)) ∨ (0x1000 ≤ a ∧ a ≤ 0xFFFFF) ∨
        (0x100000 ≤ a ∧ (a % n ≠ 0 ∨ s.cfg.maxPixels < a % 0x100000 + n))
    (refused → hostAccess x s = .next { s with log := logged x .busError s }) ∧
    (¬refused → ∀ t, hostAccess x s = .next t → t.log.head? ≠ some { access := x, response := .busError }) ∧
    (¬refused → (a + n - 1) / 0x100000 = a / 0x100000)

/-- The host addresses of the block are the 2^22 addresses from `FSD_BASE` on, one for each offset (R5, R60). -/
def Obligations.AddressesAreOffsetsFromBase : Prop :=
  ∀ (c : Config.Params) (addr : Nat) (a : Offset),
    offsetOfAddress c addr = some a ↔ addr = c.fsdBase + a.toNat

/-- No read changes the block: a read answers a next state that differs from the state before it in the log and the draw
counter alone (R67, R69, R72). -/
def Obligations.ReadsChangeNoState : Prop :=
  ∀ (a : Offset) (n : Width) (s : State), ∃ r k,
    hostAccess (.read a n) s =
      .next { s with log := logged (.read a n) r s, draws := s.draws + k } ∧ r ≠ .ok

/-- The register reads that do not depend on STATUS: the constants `ID` and `CAPS`, `CMD` as 0, the configuration, the palette
size, and the read-back windows; they are exact whatever BUSY is (R23, R24, R35, R37 to R40, R42, R43). -/
def Obligations.RegistersReadExactly : Prop :=
  ∀ s : State, s.cfg.wf →
    let reads : Nat → Nat → Prop := fun a v =>
      hostAccess (.read (BitVec.ofNat 22 a) .w4) s =
        .next { s with log := logged (.read (BitVec.ofNat 22 a) .w4) (.data (.d4 (BitVec.ofNat 32 v))) s }
    reads 0x000 0x46534401 ∧ reads 0x004 s.cfg.maxPixels ∧ reads 0x018 0 ∧
    reads 0x020 s.width.toNat ∧ reads 0x024 s.height.toNat ∧ reads 0x028 s.palK.toNat ∧
    reads 0x02C s.palN.toNat ∧
    (∀ i, i < 256 → reads (0x400 + 4 * i)
      (if i < min s.palN.toNat 256 then i * 255 / (s.palN.toNat - 1) else 0)) ∧
    (∀ v, v < 256 → reads (0x800 + 4 * v) (level s.palN.toNat v))

/-- `RESULT`, `CUR_X` and `CUR_Y` read exactly while idle and give a draw while BUSY, whatever its value is (R36, R41). -/
def Obligations.ResultAndCursorReads : Prop :=
  ∀ s : State,
    let idle : Offset → Nat → Prop := fun a v =>
      hostAccess (.read a .w4) s =
        .next { s with log := logged (.read a .w4) (.data (.d4 (BitVec.ofNat 32 v))) s }
    let busy : Offset → Prop := fun a =>
      hostAccess (.read a .w4) s =
        .next { s with log := logged (.read a .w4) (.data (.d4 (Config.draw s.draws))) s, draws := s.draws + 1 }
    (s.op = none → idle 0x01C#22 s.result.toNat ∧ idle 0x030#22 s.px.toNat ∧ idle 0x034#22 s.py.toNat) ∧
    (s.op ≠ none → busy 0x01C#22 ∧ busy 0x030#22 ∧ busy 0x034#22)

/-- A plane read while idle gives the cells, cell p in the low byte, and a fresh draw for each cell without a value; while BUSY
it gives a draw (R62, R69). -/
def Obligations.PlaneReadIsLittleEndian : Prop :=
  ∀ (c : Channel) (p : Nat) (n : Width) (s : State), s.cfg.wf →
    p % n.bytes = 0 → p + n.bytes ≤ s.cfg.maxPixels →
    let a := BitVec.ofNat 22 (planeBase c + p)
    (s.op ≠ none →
      hostAccess (.read a n) s =
        .next { s with
          log := logged (.read a n) (.data (BusData.ofWord n (Config.draw s.draws))) s
          draws := s.draws + 1 }) ∧
    (s.op = none → ∃ d k,
      hostAccess (.read a n) s =
        .next { s with log := logged (.read a n) (.data d) s, draws := s.draws + k } ∧
      d.width = n ∧
      ∀ j, j < n.bytes →
        (∀ v, s.mem.read c (p + j) = some v → byteOf d j = v) ∧
        (s.mem.read c (p + j) = none → ∃ m, s.draws ≤ m ∧ m < s.draws + k ∧
          byteOf d j = (Config.draw m).extractLsb' 0 8))

/-- A plane write while idle gives each cell it covers its byte, bits [8k+7:8k] to cell p+k; every other cell of every plane and
every register is unchanged (R62, R70). While BUSY it writes no cell and records WRITE_WHILE_BUSY with its offset (R70, R205). -/
def Obligations.PlaneWriteStoresItsBytes : Prop :=
  ∀ (c : Channel) (p : Nat) (d : BusData) (s : State), s.cfg.wf →
    p % d.width.bytes = 0 → p + d.width.bytes ≤ s.cfg.maxPixels →
    let a := BitVec.ofNat 22 (planeBase c + p)
    (s.op = none → ∃ t, hostAccess (.write a d) s = .next t ∧
      t = { s with mem := t.mem, log := logged (.write a d) .ok s } ∧
      ∀ c' q, t.mem.read c' q =
        if c' = c ∧ p ≤ q ∧ q < p + d.width.bytes then some (byteOf d (q - p)) else s.mem.read c' q) ∧
    (s.op ≠ none → hostAccess (.write a d) s =
      .next { s with
        errCode := if s.err = true then s.errCode else .writeWhileBusy
        errInfo := if s.err = true then s.errInfo else BitVec.ofNat 32 (planeBase c + p)
        err := true
        log := logged (.write a d) .ok s })

/-- Writes to `WIDTH`, `HEIGHT` and `PAL_K`: stored while idle, the high half ignored for the dimensions; refused with
WRITE_WHILE_BUSY and the register's offset while BUSY (R37 to R39, R68, R205). -/
def Obligations.ConfigurationWrites : Prop :=
  ∀ (v : Word) (s : State),
    let stored : Offset → State → Prop := fun a t =>
      hostAccess (.write a (.d4 v)) s = .next { t with log := logged (.write a (.d4 v)) .ok s }
    let refused : Offset → Word → Prop := fun a i =>
      hostAccess (.write a (.d4 v)) s =
        .next { s with
          errCode := if s.err = true then s.errCode else .writeWhileBusy
          errInfo := if s.err = true then s.errInfo else i
          err := true
          log := logged (.write a (.d4 v)) .ok s }
    (s.op = none →
      stored 0x020#22 { s with width := BitVec.ofNat 16 v.toNat } ∧
      stored 0x024#22 { s with height := BitVec.ofNat 16 v.toNat } ∧
      stored 0x028#22 { s with palK := v }) ∧
    (s.op ≠ none → refused 0x020#22 0x020#32 ∧ refused 0x024#22 0x024#32 ∧ refused 0x028#22 0x028#32)

/-- A write to a read-only register, to `PAL`, to `QLUT` or to a reserved offset is ignored without an error, and a read of a
reserved offset gives 0 (R22, R44, R68). -/
def Obligations.ReadOnlyAndReservedOffsets : Prop :=
  ∀ (a : Nat) (v : Word) (s : State), a < 0x1000 → a % 4 = 0 →
    (a ∈ [0x000, 0x004, 0x010, 0x014, 0x01C, 0x02C, 0x030, 0x034] ∨ 0x038 ≤ a →
      hostAccess (.write (BitVec.ofNat 22 a) (.d4 v)) s =
        .next { s with log := logged (.write (BitVec.ofNat 22 a) (.d4 v)) .ok s }) ∧
    ((0x038 ≤ a ∧ a ≤ 0x3FC) ∨ 0xC00 ≤ a →
      hostAccess (.read (BitVec.ofNat 22 a) .w4) s =
        .next { s with log := logged (.read (BitVec.ofNat 22 a) .w4) (.data (.d4 0#32)) s })

/-- A write to `CTRL` without bit 1 stores IE and nothing else, whatever BUSY is (R25, R26). -/
def Obligations.ControlWriteStoresEnable : Prop :=
  ∀ (v : Word) (s : State), v.toNat / 2 % 2 = 0 →
    hostAccess (.write 0x008#22 (.d4 v)) s =
      .next { s with ie := v.toNat % 2 == 1, log := logged (.write 0x008#22 (.d4 v)) .ok s }

/-- A write to `CTRL` with bit 1 is a soft reset, whatever BUSY and bit 0 are: every register takes its reset value and a running
command is abandoned without DONE. The planes are kept, but for the frame of a running DITHER, whose cells below LW × LH lose
their values in all three planes (R242, R243). -/
def Obligations.SoftResetKeepsPlanes : Prop :=
  ∀ (v : Word) (s : State), v.toNat / 2 % 2 = 1 → ∃ t,
    hostAccess (.write 0x008#22 (.d4 v)) s = .next t ∧
    t = { cfg := s.cfg, ie := false, done := false, err := false, errCode := .none, errInfo := 0#32, result := 0#8
          width := 0#16, height := 0#16, palK := 2#32, palN := 0#32, op := none, lw := 0#16, lh := 0#16
          px := 0#16, py := 0#16, mem := t.mem, pending := s.pending
          log := logged (.write 0x008#22 (.d4 v)) .ok s, schedule := s.schedule, draws := s.draws } ∧
    ∀ c p, t.mem.read c p =
      if s.op.any (fun w => w.toNat % 256 == 2) = true ∧ p < s.lw.toNat * s.lh.toNat then none else s.mem.read c p

/-- While BUSY no host access but a soft reset reaches the engine: the running command, its latches and cursor, the palette, the
configuration, `RESULT` and the planes stay (R71, R102, R107). -/
def Obligations.BusyHostCannotDisturbEngine : Prop :=
  ∀ (h : HostOp) (s t : State), s.op ≠ none → hostStep h s = .next t →
    (∀ v, h = .access (.write 0x008#22 (.d4 v)) → v.toNat / 2 % 2 = 0) →
    t.op = s.op ∧ t.lw = s.lw ∧ t.lh = s.lh ∧ t.px = s.px ∧ t.py = s.py ∧ t.palN = s.palN ∧ t.palK = s.palK ∧
      t.width = s.width ∧ t.height = s.height ∧ t.result = s.result ∧ t.mem = s.mem ∧ t.cfg = s.cfg

/-! ### Reset, invariants and runs -/

/-- After power-on reset every register holds the value of R49, no cell holds a value, the engine is idle and `IRQ` is low (R49,
R240, R241). -/
def Obligations.PowerOnResetState : Prop :=
  ∀ c : Config.Params,
    let s := State.resetWith c
    s.cfg = c ∧ s.ie = false ∧ s.done = false ∧ s.err = false ∧ s.errCode = .none ∧ s.errInfo = 0#32 ∧
    s.palN = 0#32 ∧ s.result = 0#8 ∧ s.width = 0#16 ∧ s.height = 0#16 ∧ s.palK = 2#32 ∧
    s.px = 0#16 ∧ s.py = 0#16 ∧ s.lw = 0#16 ∧ s.lh = 0#16 ∧ s.op = none ∧ s.irq = false ∧ statusWord s = 0#32 ∧
    (∀ ch p, s.mem.read ch p = none) ∧ (∀ v, quantize s.palN.toNat v = 0) ∧ step s = .next s

/-- The reset state meets the invariant, for every choice of the parameters R5 allows. -/
def Obligations.ResetMeetsInvariant : Prop :=
  (∀ c : Config.Params, c.wf → Inv (State.resetWith c)) ∧ Inv State.reset

/-- Every step keeps the invariant: the canonical memory within MAX_PIXELS, N ≠ 1, ERR and ERR_CODE in step, DONE low while BUSY,
`OP` a command, and a running DITHER's frame, latches and cursor legal (R30, R33, R45, R46, R106, R170, R185). -/
def Obligations.StepKeepsInvariant : Prop :=
  ∀ s t : State, Inv s → step s = .next t → Inv t

/-- From a state that meets the invariant a step stops only as R185 says: the host's next access submits a DITHER while idle, and
its frame holds the reported cell without a value. In particular no accepted command ever stops (R183, R200). -/
def Obligations.StepStopsOnlyOnUnwrittenFrame : Prop :=
  ∀ s : State, Inv s →
    safeStep s ∨
    ∃ c p rest, step s = .fault (.unwritten c p) ∧ s.op = none ∧
      s.pending = .access (writeCmd 0x00000002#32) :: rest ∧
      p < s.width.toNat * s.height.toNat ∧ s.mem.read c p = none

/-- Memories in canonical form that hold the same values are the same data. -/
def Obligations.CanonicalMemoryIsUnique : Prop :=
  ∀ m m' : Memory, m.wf → m'.wf → (∀ c p, m.read c p = m'.read c p) → m = m'

/-- Every engine step brings the running command nearer to its completion: the command completes, or it is a DITHER with one
pixel fewer left (R104). -/
def Obligations.EngineStepsMakeProgress : Prop :=
  ∀ (s : State) (w : Word) (i : Instr), Inv s → s.op = some w → decode w = .ok i →
    ∃ t, exec i s = .next t ∧
      ((t.op = none ∧ t.done = true) ∨
        (i = .dither ∧ t.op = some w ∧ t.done = false ∧ pixelsLeft t + 1 = pixelsLeft s))

/-- Every accepted command completes: with the host waiting, after at most LW × LH + 1 engine steps BUSY is 0 and DONE is 1
(R104, R251). -/
def Obligations.AcceptedCommandCompletes : Prop :=
  ∀ (s : State) (w : Word), Inv s → s.op = some w → s.pending = [] →
    ∃ k t, k ≤ s.lw.toNat * s.lh.toNat + 1 ∧ Host.Core.run Sys2Proof.core k s = .next t ∧
      t.op = none ∧ t.done = true

/-- A whole DITHER is the raster traversal of the image in each plane: after LW × LH pixel steps and the completion each cell of
the frame holds the sample the traversal gives, computed on that plane's image alone; every other cell and every other
register is unchanged (R171, R172, R181, R182, R183). -/
def Obligations.DitherRunIsRasterTraversal : Prop :=
  ∀ s : State, Inv s → ditherStarted s → ∃ t, ditherRun s = .next t ∧
    t = { s with op := none, done := true, px := 0#16, py := s.lh, mem := t.mem } ∧
    ∀ c,
      (∀ x y, x < s.lw.toNat → y < s.lh.toNat →
        t.mem.read c (y * s.lw.toNat + x) =
          some (BitVec.ofNat 8
            (ditherImage s.palN.toNat s.lw.toNat s.lh.toNat (imageOf s.mem c s.lw.toNat) x y))) ∧
      (∀ p, s.lw.toNat * s.lh.toNat ≤ p → t.mem.read c p = s.mem.read c p)

/-- Range closure: after a whole DITHER every cell of the frame holds a palette value; with no palette it holds 0 (R186 (a)). -/
def Obligations.DitherRangeClosure : Prop :=
  ∀ s : State, Inv s → ditherStarted s → ∃ t, ditherRun s = .next t ∧
    ∀ c p, p < s.lw.toNat * s.lh.toNat →
      ∃ v, t.mem.read c p = some v ∧
        (2 ≤ s.palN.toNat → v.toNat ∈ palSeq s.palN.toNat) ∧ (s.palN.toNat = 0 → v = 0#8)

/-- Idempotence on fixed points: a frame that holds palette values only is unchanged by a whole DITHER (R186 (b)). -/
def Obligations.DitherKeepsPaletteFrames : Prop :=
  ∀ s : State, Inv s → ditherStarted s → 2 ≤ s.palN.toNat →
    (∀ c p v, p < s.lw.toNat * s.lh.toNat → s.mem.read c p = some v → v.toNat ∈ palSeq s.palN.toNat) →
    ∃ t, ditherRun s = .next t ∧ t.mem = s.mem

/-- Channel independence: what a DITHER step makes of one plane depends on that plane, the latched dimensions, the cursor and N
alone (R182). -/
def Obligations.ChannelsAreIndependent : Prop :=
  ∀ (c : Channel) (s s' t t' : State),
    s.palN = s'.palN → s.lw = s'.lw → s.lh = s'.lh → s.px = s'.px → s.py = s'.py →
    s.mem.plane c = s'.mem.plane c →
    exec .dither s = .next t → exec .dither s' = .next t' → t.mem.plane c = t'.mem.plane c

/-- Grayscale preservation: equal planes stay equal through a whole DITHER (R186 (e)). -/
def Obligations.DitherKeepsGrayscale : Prop :=
  ∀ s : State, Inv s → ditherStarted s → s.mem.r = s.mem.g → s.mem.g = s.mem.b →
    ∃ t, ditherRun s = .next t ∧ t.mem.r = t.mem.g ∧ t.mem.g = t.mem.b
end

