-- ==== Sys2Proof/Laws/Decode.lean ====
section
/-! SUPPORT. The decoder's cases, said once (30_encoding.md R93 to R95). -/

namespace Sys2Proof

/-- The opcode is below 256. -/
theorem fieldOpc_lt (w : Word) : fieldOpc w < 256 := (w.extractLsb' 0 8).isLt

/-- The sample field is a sample. -/
theorem fieldV_le (w : Word) : fieldV w ≤ 255 := by
  have := (w.extractLsb' 8 8).isLt
  unfold fieldV; omega

/-- The delta field is a delta. -/
theorem fieldD_range (w : Word) : -128 ≤ fieldD w ∧ fieldD w ≤ 127 := by
  have h1 := BitVec.toInt_lt (x := w.extractLsb' 16 8)
  have h2 := BitVec.le_toInt (x := w.extractLsb' 16 8)
  unfold fieldD
  omega

/-- The fields of a word as numbers (R91). -/
theorem fieldOpc_eq (w : Word) : fieldOpc w = w.toNat % 256 := by
  simp [fieldOpc, BitVec.extractLsb'_toNat]

theorem fieldV_eq (w : Word) : fieldV w = w.toNat / 256 % 256 := by
  simp [fieldV, BitVec.extractLsb'_toNat, Nat.shiftRight_eq_div_pow]

theorem fieldD_eq (w : Word) :
    fieldD w =
      if w.toNat / 65536 % 256 < 128 then ((w.toNat / 65536 % 256 : Nat) : Int)
      else ((w.toNat / 65536 % 256 : Nat) : Int) - 256 := by
  simp only [fieldD, BitVec.toInt_eq_toNat_cond, BitVec.extractLsb'_toNat, Nat.shiftRight_eq_div_pow]
  split <;> split <;> omega

/-- An accepted word: its opcode is valid, no reserved bit is set, and it is the opcode's command (R95, R100). -/
theorem decode_ok_iff (w : Word) (i : Instr) :
    decode w = .ok i ↔
      fieldOpc w ≤ 4 ∧ w &&& reservedMask (fieldOpc w) = 0#32 ∧ i = commandOf (fieldOpc w) w := by
  unfold decode
  by_cases h1 : 5 ≤ fieldOpc w
  · simp [h1]; omega
  · rw [if_neg h1]
    by_cases h2 : w &&& reservedMask (fieldOpc w) = 0#32
    · simp [h2, show fieldOpc w ≤ 4 by omega, eq_comm]
    · simp [h2]

theorem decode_illegal_iff (w : Word) : decode w = .illegalOpcode ↔ 5 ≤ fieldOpc w := by
  unfold decode
  by_cases h1 : 5 ≤ fieldOpc w
  · simp [h1]
  · rw [if_neg h1]
    by_cases h2 : w &&& reservedMask (fieldOpc w) = 0#32 <;> simp [h2] <;> omega

theorem decode_reserved_iff (w : Word) :
    decode w = .reservedBits ↔ fieldOpc w ≤ 4 ∧ w &&& reservedMask (fieldOpc w) ≠ 0#32 := by
  unfold decode
  by_cases h1 : 5 ≤ fieldOpc w
  · simp [h1]; omega
  · rw [if_neg h1]
    by_cases h2 : w &&& reservedMask (fieldOpc w) = 0#32 <;> simp [h2]; omega

/-- Every command the decoder reads is well-formed. -/
theorem wf_of_decode {w : Word} {i : Instr} (h : decode w = .ok i) : i.wf = true := by
  obtain ⟨-, -, rfl⟩ := (decode_ok_iff w i).1 h
  have hv := fieldV_le w
  have hd := fieldD_range w
  unfold commandOf
  repeat' split
  all_goals simp [Instr.wf, sampleInRange, deltaInRange, hv, hd]

/-- The opcode says whether an accepted word is DITHER (R101). -/
theorem dither_of_decode {w : Word} {i : Instr} (h : decode w = .ok i) :
    Machine.isDitherWord w = true ↔ i = .dither := by
  obtain ⟨h4, -, rfl⟩ := (decode_ok_iff w i).1 h
  unfold Machine.isDitherWord commandOf
  repeat' split
  all_goals simp_all

/-! ### Masks and encodings as numbers -/

/-- The low k bits of a word, as a number. -/
theorem toNat_and_low (w : Word) (k : Nat) (h : k ≤ 32) :
    (w &&& BitVec.ofNat 32 (2 ^ k - 1)).toNat = w.toNat % 2 ^ k := by
  have h1 : 2 ^ k - 1 < 2 ^ 32 := by
    have := Nat.pow_le_pow_right (n := 2) (by decide) h
    have := Nat.two_pow_pos k
    omega
  rw [BitVec.toNat_and, BitVec.toNat_ofNat, Nat.mod_eq_of_lt h1, Nat.and_two_pow_sub_one_eq_mod]

/-- No bit of the mask is set exactly when the word keeps all of its other bits. -/
theorem and_not_eq_zero_iff (w m : Word) : w &&& ~~~m = 0#32 ↔ w &&& m = w := by
  constructor
  · intro h
    have h1 : w = (w &&& m) ||| (w &&& ~~~m) := by
      ext i hi
      simp
      cases m[i] <;> simp
    rw [h, BitVec.or_zero] at h1
    exact h1.symm
  · intro h
    rw [← h, BitVec.and_assoc]
    simp

/-- No bit from k on is set exactly when the word is below 2^k. -/
theorem and_high_eq_zero_iff (w : Word) (k : Nat) (h : k ≤ 32) :
    w &&& ~~~(BitVec.ofNat 32 (2 ^ k - 1)) = 0#32 ↔ w.toNat < 2 ^ k := by
  rw [and_not_eq_zero_iff, ← BitVec.toNat_inj, toNat_and_low w k h]
  exact Nat.mod_eq_iff_lt (by have := Nat.two_pow_pos k; omega)

/-- The reserved bits of a valid opcode as a bound on the word (R94). -/
theorem reserved_clear_iff (w : Word) :
    w &&& reservedMask (fieldOpc w) = 0#32 ↔
      w.toNat < if fieldOpc w = 3 then 2 ^ 16 else if fieldOpc w = 4 then 2 ^ 24 else 2 ^ 8 := by
  unfold reservedMask
  split
  · exact and_high_eq_zero_iff w 16 (by decide)
  · split
    · exact and_high_eq_zero_iff w 24 (by decide)
    · exact and_high_eq_zero_iff w 8 (by decide)

/-- Fields side by side add up. -/
theorem toNat_shift_or (hi lo : Word) (k : Nat) (h : lo.toNat < 2 ^ k) (hk : hi.toNat * 2 ^ k < 2 ^ 32) :
    (hi <<< k ||| lo).toNat = hi.toNat * 2 ^ k + lo.toNat := by
  rw [BitVec.toNat_or, BitVec.toNat_shiftLeft, Nat.shiftLeft_eq, Nat.mod_eq_of_lt hk, Nat.mul_comm,
    Nat.two_pow_add_eq_or_of_lt h]

/-- `QUANT v` as a number (R96). -/
theorem encode_quant_toNat {v : Nat} (h : v ≤ 255) : (encode (.quant v)).toNat = v * 256 + 3 := by
  show (BitVec.ofNat 32 v <<< 8 ||| 0x03#32).toNat = _
  have e : (BitVec.ofNat 32 v).toNat = v := by simp; omega
  rw [toNat_shift_or _ _ 8 (by decide) (by rw [e]; omega), e]
  rfl

/-- The 8-bit pattern of a delta as a number (R96). -/
theorem delta_pattern_toNat (d : Int) : (BitVec.ofInt 32 d &&& 0xFF#32).toNat = (d % 256).toNat := by
  have := toNat_and_low (BitVec.ofInt 32 d) 8 (by decide)
  rw [show BitVec.ofNat 32 (2 ^ 8 - 1) = 0xFF#32 from rfl] at this
  rw [this, BitVec.toNat_ofInt]
  omega

/-- `SATADD v, d` as a number (R96). -/
theorem encode_satadd_toNat {v : Nat} (d : Int) (h : v ≤ 255) :
    (encode (.satadd v d)).toNat = (d % 256).toNat * 65536 + v * 256 + 4 := by
  show ((BitVec.ofInt 32 d &&& 0xFF#32) <<< 16 ||| BitVec.ofNat 32 v <<< 8 ||| 0x04#32).toNat = _
  have e : (BitVec.ofNat 32 v).toNat = v := by simp; omega
  have h1 := toNat_shift_or (BitVec.ofNat 32 v) 0x04#32 8 (by decide) (by rw [e]; omega)
  have h2 := delta_pattern_toNat d
  have h3 : (4#32).toNat = 4 := rfl
  rw [e, h3] at h1
  rw [BitVec.or_assoc, toNat_shift_or _ _ 16 (by rw [h1]; omega) (by rw [h2]; omega), h1, h2]
  omega

end Sys2Proof
end

