-- ==== Sys2Proof/Laws/State.lean ====
section
/-! SUPPORT. One lemma per field per named update of the state, true by rfl, so that no proof unfolds a record
update. -/

namespace Sys2Proof.Machine

/-! ### `recordError` -/

@[simp] theorem recordError_cfg (c : ErrCode) (i : Word) (s : State) : (recordError c i s).cfg = s.cfg := rfl
@[simp] theorem recordError_ie (c : ErrCode) (i : Word) (s : State) : (recordError c i s).ie = s.ie := rfl
@[simp] theorem recordError_done (c : ErrCode) (i : Word) (s : State) : (recordError c i s).done = s.done := rfl
@[simp] theorem recordError_err (c : ErrCode) (i : Word) (s : State) : (recordError c i s).err = true := rfl
@[simp] theorem recordError_errCode (c : ErrCode) (i : Word) (s : State) : (recordError c i s).errCode = (if s.err then s.errCode else c) := rfl
@[simp] theorem recordError_errInfo (c : ErrCode) (i : Word) (s : State) : (recordError c i s).errInfo = (if s.err then s.errInfo else i) := rfl
@[simp] theorem recordError_result (c : ErrCode) (i : Word) (s : State) : (recordError c i s).result = s.result := rfl
@[simp] theorem recordError_width (c : ErrCode) (i : Word) (s : State) : (recordError c i s).width = s.width := rfl
@[simp] theorem recordError_height (c : ErrCode) (i : Word) (s : State) : (recordError c i s).height = s.height := rfl
@[simp] theorem recordError_palK (c : ErrCode) (i : Word) (s : State) : (recordError c i s).palK = s.palK := rfl
@[simp] theorem recordError_palN (c : ErrCode) (i : Word) (s : State) : (recordError c i s).palN = s.palN := rfl
@[simp] theorem recordError_op (c : ErrCode) (i : Word) (s : State) : (recordError c i s).op = s.op := rfl
@[simp] theorem recordError_lw (c : ErrCode) (i : Word) (s : State) : (recordError c i s).lw = s.lw := rfl
@[simp] theorem recordError_lh (c : ErrCode) (i : Word) (s : State) : (recordError c i s).lh = s.lh := rfl
@[simp] theorem recordError_px (c : ErrCode) (i : Word) (s : State) : (recordError c i s).px = s.px := rfl
@[simp] theorem recordError_py (c : ErrCode) (i : Word) (s : State) : (recordError c i s).py = s.py := rfl
@[simp] theorem recordError_mem (c : ErrCode) (i : Word) (s : State) : (recordError c i s).mem = s.mem := rfl
@[simp] theorem recordError_pending (c : ErrCode) (i : Word) (s : State) : (recordError c i s).pending = s.pending := rfl
@[simp] theorem recordError_log (c : ErrCode) (i : Word) (s : State) : (recordError c i s).log = s.log := rfl
@[simp] theorem recordError_schedule (c : ErrCode) (i : Word) (s : State) : (recordError c i s).schedule = s.schedule := rfl
@[simp] theorem recordError_draws (c : ErrCode) (i : Word) (s : State) : (recordError c i s).draws = s.draws := rfl

/-! ### `clearError` -/

@[simp] theorem clearError_cfg (s : State) : (clearError s).cfg = s.cfg := rfl
@[simp] theorem clearError_ie (s : State) : (clearError s).ie = s.ie := rfl
@[simp] theorem clearError_done (s : State) : (clearError s).done = s.done := rfl
@[simp] theorem clearError_err (s : State) : (clearError s).err = false := rfl
@[simp] theorem clearError_errCode (s : State) : (clearError s).errCode = .none := rfl
@[simp] theorem clearError_errInfo (s : State) : (clearError s).errInfo = 0#32 := rfl
@[simp] theorem clearError_result (s : State) : (clearError s).result = s.result := rfl
@[simp] theorem clearError_width (s : State) : (clearError s).width = s.width := rfl
@[simp] theorem clearError_height (s : State) : (clearError s).height = s.height := rfl
@[simp] theorem clearError_palK (s : State) : (clearError s).palK = s.palK := rfl
@[simp] theorem clearError_palN (s : State) : (clearError s).palN = s.palN := rfl
@[simp] theorem clearError_op (s : State) : (clearError s).op = s.op := rfl
@[simp] theorem clearError_lw (s : State) : (clearError s).lw = s.lw := rfl
@[simp] theorem clearError_lh (s : State) : (clearError s).lh = s.lh := rfl
@[simp] theorem clearError_px (s : State) : (clearError s).px = s.px := rfl
@[simp] theorem clearError_py (s : State) : (clearError s).py = s.py := rfl
@[simp] theorem clearError_mem (s : State) : (clearError s).mem = s.mem := rfl
@[simp] theorem clearError_pending (s : State) : (clearError s).pending = s.pending := rfl
@[simp] theorem clearError_log (s : State) : (clearError s).log = s.log := rfl
@[simp] theorem clearError_schedule (s : State) : (clearError s).schedule = s.schedule := rfl
@[simp] theorem clearError_draws (s : State) : (clearError s).draws = s.draws := rfl

/-! ### `clearDone` -/

@[simp] theorem clearDone_cfg (s : State) : (clearDone s).cfg = s.cfg := rfl
@[simp] theorem clearDone_ie (s : State) : (clearDone s).ie = s.ie := rfl
@[simp] theorem clearDone_done (s : State) : (clearDone s).done = false := rfl
@[simp] theorem clearDone_err (s : State) : (clearDone s).err = s.err := rfl
@[simp] theorem clearDone_errCode (s : State) : (clearDone s).errCode = s.errCode := rfl
@[simp] theorem clearDone_errInfo (s : State) : (clearDone s).errInfo = s.errInfo := rfl
@[simp] theorem clearDone_result (s : State) : (clearDone s).result = s.result := rfl
@[simp] theorem clearDone_width (s : State) : (clearDone s).width = s.width := rfl
@[simp] theorem clearDone_height (s : State) : (clearDone s).height = s.height := rfl
@[simp] theorem clearDone_palK (s : State) : (clearDone s).palK = s.palK := rfl
@[simp] theorem clearDone_palN (s : State) : (clearDone s).palN = s.palN := rfl
@[simp] theorem clearDone_op (s : State) : (clearDone s).op = s.op := rfl
@[simp] theorem clearDone_lw (s : State) : (clearDone s).lw = s.lw := rfl
@[simp] theorem clearDone_lh (s : State) : (clearDone s).lh = s.lh := rfl
@[simp] theorem clearDone_px (s : State) : (clearDone s).px = s.px := rfl
@[simp] theorem clearDone_py (s : State) : (clearDone s).py = s.py := rfl
@[simp] theorem clearDone_mem (s : State) : (clearDone s).mem = s.mem := rfl
@[simp] theorem clearDone_pending (s : State) : (clearDone s).pending = s.pending := rfl
@[simp] theorem clearDone_log (s : State) : (clearDone s).log = s.log := rfl
@[simp] theorem clearDone_schedule (s : State) : (clearDone s).schedule = s.schedule := rfl
@[simp] theorem clearDone_draws (s : State) : (clearDone s).draws = s.draws := rfl

/-! ### `accept` -/

@[simp] theorem accept_cfg (w : Word) (s : State) : (accept w s).cfg = s.cfg := rfl
@[simp] theorem accept_ie (w : Word) (s : State) : (accept w s).ie = s.ie := rfl
@[simp] theorem accept_done (w : Word) (s : State) : (accept w s).done = false := rfl
@[simp] theorem accept_err (w : Word) (s : State) : (accept w s).err = s.err := rfl
@[simp] theorem accept_errCode (w : Word) (s : State) : (accept w s).errCode = s.errCode := rfl
@[simp] theorem accept_errInfo (w : Word) (s : State) : (accept w s).errInfo = s.errInfo := rfl
@[simp] theorem accept_result (w : Word) (s : State) : (accept w s).result = s.result := rfl
@[simp] theorem accept_width (w : Word) (s : State) : (accept w s).width = s.width := rfl
@[simp] theorem accept_height (w : Word) (s : State) : (accept w s).height = s.height := rfl
@[simp] theorem accept_palK (w : Word) (s : State) : (accept w s).palK = s.palK := rfl
@[simp] theorem accept_palN (w : Word) (s : State) : (accept w s).palN = s.palN := rfl
@[simp] theorem accept_op (w : Word) (s : State) : (accept w s).op = some w := rfl
@[simp] theorem accept_lw (w : Word) (s : State) : (accept w s).lw = (if isDitherWord w then s.width else s.lw) := rfl
@[simp] theorem accept_lh (w : Word) (s : State) : (accept w s).lh = (if isDitherWord w then s.height else s.lh) := rfl
@[simp] theorem accept_px (w : Word) (s : State) : (accept w s).px = (if isDitherWord w then 0#16 else s.px) := rfl
@[simp] theorem accept_py (w : Word) (s : State) : (accept w s).py = (if isDitherWord w then 0#16 else s.py) := rfl
@[simp] theorem accept_mem (w : Word) (s : State) : (accept w s).mem = s.mem := rfl
@[simp] theorem accept_pending (w : Word) (s : State) : (accept w s).pending = s.pending := rfl
@[simp] theorem accept_log (w : Word) (s : State) : (accept w s).log = s.log := rfl
@[simp] theorem accept_schedule (w : Word) (s : State) : (accept w s).schedule = s.schedule := rfl
@[simp] theorem accept_draws (w : Word) (s : State) : (accept w s).draws = s.draws := rfl

/-! ### `complete` -/

@[simp] theorem complete_cfg (s : State) : (complete s).cfg = s.cfg := rfl
@[simp] theorem complete_ie (s : State) : (complete s).ie = s.ie := rfl
@[simp] theorem complete_done (s : State) : (complete s).done = true := rfl
@[simp] theorem complete_err (s : State) : (complete s).err = s.err := rfl
@[simp] theorem complete_errCode (s : State) : (complete s).errCode = s.errCode := rfl
@[simp] theorem complete_errInfo (s : State) : (complete s).errInfo = s.errInfo := rfl
@[simp] theorem complete_result (s : State) : (complete s).result = s.result := rfl
@[simp] theorem complete_width (s : State) : (complete s).width = s.width := rfl
@[simp] theorem complete_height (s : State) : (complete s).height = s.height := rfl
@[simp] theorem complete_palK (s : State) : (complete s).palK = s.palK := rfl
@[simp] theorem complete_palN (s : State) : (complete s).palN = s.palN := rfl
@[simp] theorem complete_op (s : State) : (complete s).op = none := rfl
@[simp] theorem complete_lw (s : State) : (complete s).lw = s.lw := rfl
@[simp] theorem complete_lh (s : State) : (complete s).lh = s.lh := rfl
@[simp] theorem complete_px (s : State) : (complete s).px = s.px := rfl
@[simp] theorem complete_py (s : State) : (complete s).py = s.py := rfl
@[simp] theorem complete_mem (s : State) : (complete s).mem = s.mem := rfl
@[simp] theorem complete_pending (s : State) : (complete s).pending = s.pending := rfl
@[simp] theorem complete_log (s : State) : (complete s).log = s.log := rfl
@[simp] theorem complete_schedule (s : State) : (complete s).schedule = s.schedule := rfl
@[simp] theorem complete_draws (s : State) : (complete s).draws = s.draws := rfl

/-! ### `ditherComplete` -/

@[simp] theorem ditherComplete_cfg (s : State) : (ditherComplete s).cfg = s.cfg := rfl
@[simp] theorem ditherComplete_ie (s : State) : (ditherComplete s).ie = s.ie := rfl
@[simp] theorem ditherComplete_done (s : State) : (ditherComplete s).done = true := rfl
@[simp] theorem ditherComplete_err (s : State) : (ditherComplete s).err = s.err := rfl
@[simp] theorem ditherComplete_errCode (s : State) : (ditherComplete s).errCode = s.errCode := rfl
@[simp] theorem ditherComplete_errInfo (s : State) : (ditherComplete s).errInfo = s.errInfo := rfl
@[simp] theorem ditherComplete_result (s : State) : (ditherComplete s).result = s.result := rfl
@[simp] theorem ditherComplete_width (s : State) : (ditherComplete s).width = s.width := rfl
@[simp] theorem ditherComplete_height (s : State) : (ditherComplete s).height = s.height := rfl
@[simp] theorem ditherComplete_palK (s : State) : (ditherComplete s).palK = s.palK := rfl
@[simp] theorem ditherComplete_palN (s : State) : (ditherComplete s).palN = s.palN := rfl
@[simp] theorem ditherComplete_op (s : State) : (ditherComplete s).op = none := rfl
@[simp] theorem ditherComplete_lw (s : State) : (ditherComplete s).lw = s.lw := rfl
@[simp] theorem ditherComplete_lh (s : State) : (ditherComplete s).lh = s.lh := rfl
@[simp] theorem ditherComplete_px (s : State) : (ditherComplete s).px = 0#16 := rfl
@[simp] theorem ditherComplete_py (s : State) : (ditherComplete s).py = s.lh := rfl
@[simp] theorem ditherComplete_mem (s : State) : (ditherComplete s).mem = s.mem := rfl
@[simp] theorem ditherComplete_pending (s : State) : (ditherComplete s).pending = s.pending := rfl
@[simp] theorem ditherComplete_log (s : State) : (ditherComplete s).log = s.log := rfl
@[simp] theorem ditherComplete_schedule (s : State) : (ditherComplete s).schedule = s.schedule := rfl
@[simp] theorem ditherComplete_draws (s : State) : (ditherComplete s).draws = s.draws := rfl

/-! ### `useDraws` -/

@[simp] theorem useDraws_cfg (n : Nat) (s : State) : (useDraws n s).cfg = s.cfg := rfl
@[simp] theorem useDraws_ie (n : Nat) (s : State) : (useDraws n s).ie = s.ie := rfl
@[simp] theorem useDraws_done (n : Nat) (s : State) : (useDraws n s).done = s.done := rfl
@[simp] theorem useDraws_err (n : Nat) (s : State) : (useDraws n s).err = s.err := rfl
@[simp] theorem useDraws_errCode (n : Nat) (s : State) : (useDraws n s).errCode = s.errCode := rfl
@[simp] theorem useDraws_errInfo (n : Nat) (s : State) : (useDraws n s).errInfo = s.errInfo := rfl
@[simp] theorem useDraws_result (n : Nat) (s : State) : (useDraws n s).result = s.result := rfl
@[simp] theorem useDraws_width (n : Nat) (s : State) : (useDraws n s).width = s.width := rfl
@[simp] theorem useDraws_height (n : Nat) (s : State) : (useDraws n s).height = s.height := rfl
@[simp] theorem useDraws_palK (n : Nat) (s : State) : (useDraws n s).palK = s.palK := rfl
@[simp] theorem useDraws_palN (n : Nat) (s : State) : (useDraws n s).palN = s.palN := rfl
@[simp] theorem useDraws_op (n : Nat) (s : State) : (useDraws n s).op = s.op := rfl
@[simp] theorem useDraws_lw (n : Nat) (s : State) : (useDraws n s).lw = s.lw := rfl
@[simp] theorem useDraws_lh (n : Nat) (s : State) : (useDraws n s).lh = s.lh := rfl
@[simp] theorem useDraws_px (n : Nat) (s : State) : (useDraws n s).px = s.px := rfl
@[simp] theorem useDraws_py (n : Nat) (s : State) : (useDraws n s).py = s.py := rfl
@[simp] theorem useDraws_mem (n : Nat) (s : State) : (useDraws n s).mem = s.mem := rfl
@[simp] theorem useDraws_pending (n : Nat) (s : State) : (useDraws n s).pending = s.pending := rfl
@[simp] theorem useDraws_log (n : Nat) (s : State) : (useDraws n s).log = s.log := rfl
@[simp] theorem useDraws_schedule (n : Nat) (s : State) : (useDraws n s).schedule = s.schedule := rfl
@[simp] theorem useDraws_draws (n : Nat) (s : State) : (useDraws n s).draws = s.draws + n := rfl

/-! ### `logEvent` -/

@[simp] theorem logEvent_cfg (x : Access) (r : Response) (s : State) : (logEvent x r s).cfg = s.cfg := rfl
@[simp] theorem logEvent_ie (x : Access) (r : Response) (s : State) : (logEvent x r s).ie = s.ie := rfl
@[simp] theorem logEvent_done (x : Access) (r : Response) (s : State) : (logEvent x r s).done = s.done := rfl
@[simp] theorem logEvent_err (x : Access) (r : Response) (s : State) : (logEvent x r s).err = s.err := rfl
@[simp] theorem logEvent_errCode (x : Access) (r : Response) (s : State) : (logEvent x r s).errCode = s.errCode := rfl
@[simp] theorem logEvent_errInfo (x : Access) (r : Response) (s : State) : (logEvent x r s).errInfo = s.errInfo := rfl
@[simp] theorem logEvent_result (x : Access) (r : Response) (s : State) : (logEvent x r s).result = s.result := rfl
@[simp] theorem logEvent_width (x : Access) (r : Response) (s : State) : (logEvent x r s).width = s.width := rfl
@[simp] theorem logEvent_height (x : Access) (r : Response) (s : State) : (logEvent x r s).height = s.height := rfl
@[simp] theorem logEvent_palK (x : Access) (r : Response) (s : State) : (logEvent x r s).palK = s.palK := rfl
@[simp] theorem logEvent_palN (x : Access) (r : Response) (s : State) : (logEvent x r s).palN = s.palN := rfl
@[simp] theorem logEvent_op (x : Access) (r : Response) (s : State) : (logEvent x r s).op = s.op := rfl
@[simp] theorem logEvent_lw (x : Access) (r : Response) (s : State) : (logEvent x r s).lw = s.lw := rfl
@[simp] theorem logEvent_lh (x : Access) (r : Response) (s : State) : (logEvent x r s).lh = s.lh := rfl
@[simp] theorem logEvent_px (x : Access) (r : Response) (s : State) : (logEvent x r s).px = s.px := rfl
@[simp] theorem logEvent_py (x : Access) (r : Response) (s : State) : (logEvent x r s).py = s.py := rfl
@[simp] theorem logEvent_mem (x : Access) (r : Response) (s : State) : (logEvent x r s).mem = s.mem := rfl
@[simp] theorem logEvent_pending (x : Access) (r : Response) (s : State) : (logEvent x r s).pending = s.pending := rfl
@[simp] theorem logEvent_log (x : Access) (r : Response) (s : State) : (logEvent x r s).log = { access := x, response := r } :: s.log := rfl
@[simp] theorem logEvent_schedule (x : Access) (r : Response) (s : State) : (logEvent x r s).schedule = s.schedule := rfl
@[simp] theorem logEvent_draws (x : Access) (r : Response) (s : State) : (logEvent x r s).draws = s.draws := rfl

/-! ### `softReset` -/

@[simp] theorem softReset_cfg (s : State) : (softReset s).cfg = s.cfg := rfl
@[simp] theorem softReset_ie (s : State) : (softReset s).ie = false := rfl
@[simp] theorem softReset_done (s : State) : (softReset s).done = false := rfl
@[simp] theorem softReset_err (s : State) : (softReset s).err = false := rfl
@[simp] theorem softReset_errCode (s : State) : (softReset s).errCode = .none := rfl
@[simp] theorem softReset_errInfo (s : State) : (softReset s).errInfo = 0#32 := rfl
@[simp] theorem softReset_result (s : State) : (softReset s).result = 0#8 := rfl
@[simp] theorem softReset_width (s : State) : (softReset s).width = 0#16 := rfl
@[simp] theorem softReset_height (s : State) : (softReset s).height = 0#16 := rfl
@[simp] theorem softReset_palK (s : State) : (softReset s).palK = 2#32 := rfl
@[simp] theorem softReset_palN (s : State) : (softReset s).palN = 0#32 := rfl
@[simp] theorem softReset_op (s : State) : (softReset s).op = none := rfl
@[simp] theorem softReset_lw (s : State) : (softReset s).lw = 0#16 := rfl
@[simp] theorem softReset_lh (s : State) : (softReset s).lh = 0#16 := rfl
@[simp] theorem softReset_px (s : State) : (softReset s).px = 0#16 := rfl
@[simp] theorem softReset_py (s : State) : (softReset s).py = 0#16 := rfl
@[simp] theorem softReset_mem (s : State) : (softReset s).mem = planesAfterSoftReset s := rfl
@[simp] theorem softReset_pending (s : State) : (softReset s).pending = s.pending := rfl
@[simp] theorem softReset_log (s : State) : (softReset s).log = s.log := rfl
@[simp] theorem softReset_schedule (s : State) : (softReset s).schedule = s.schedule := rfl
@[simp] theorem softReset_draws (s : State) : (softReset s).draws = s.draws := rfl

/-! ### `withProgram` -/

@[simp] theorem withProgram_cfg (s : State) (ops : List HostOp) : (s.withProgram ops).cfg = s.cfg := rfl
@[simp] theorem withProgram_ie (s : State) (ops : List HostOp) : (s.withProgram ops).ie = s.ie := rfl
@[simp] theorem withProgram_done (s : State) (ops : List HostOp) : (s.withProgram ops).done = s.done := rfl
@[simp] theorem withProgram_err (s : State) (ops : List HostOp) : (s.withProgram ops).err = s.err := rfl
@[simp] theorem withProgram_errCode (s : State) (ops : List HostOp) : (s.withProgram ops).errCode = s.errCode := rfl
@[simp] theorem withProgram_errInfo (s : State) (ops : List HostOp) : (s.withProgram ops).errInfo = s.errInfo := rfl
@[simp] theorem withProgram_result (s : State) (ops : List HostOp) : (s.withProgram ops).result = s.result := rfl
@[simp] theorem withProgram_width (s : State) (ops : List HostOp) : (s.withProgram ops).width = s.width := rfl
@[simp] theorem withProgram_height (s : State) (ops : List HostOp) : (s.withProgram ops).height = s.height := rfl
@[simp] theorem withProgram_palK (s : State) (ops : List HostOp) : (s.withProgram ops).palK = s.palK := rfl
@[simp] theorem withProgram_palN (s : State) (ops : List HostOp) : (s.withProgram ops).palN = s.palN := rfl
@[simp] theorem withProgram_op (s : State) (ops : List HostOp) : (s.withProgram ops).op = s.op := rfl
@[simp] theorem withProgram_lw (s : State) (ops : List HostOp) : (s.withProgram ops).lw = s.lw := rfl
@[simp] theorem withProgram_lh (s : State) (ops : List HostOp) : (s.withProgram ops).lh = s.lh := rfl
@[simp] theorem withProgram_px (s : State) (ops : List HostOp) : (s.withProgram ops).px = s.px := rfl
@[simp] theorem withProgram_py (s : State) (ops : List HostOp) : (s.withProgram ops).py = s.py := rfl
@[simp] theorem withProgram_mem (s : State) (ops : List HostOp) : (s.withProgram ops).mem = s.mem := rfl
@[simp] theorem withProgram_pending (s : State) (ops : List HostOp) : (s.withProgram ops).pending = s.pending ++ ops := rfl
@[simp] theorem withProgram_log (s : State) (ops : List HostOp) : (s.withProgram ops).log = s.log := rfl
@[simp] theorem withProgram_schedule (s : State) (ops : List HostOp) : (s.withProgram ops).schedule = s.schedule := rfl
@[simp] theorem withProgram_draws (s : State) (ops : List HostOp) : (s.withProgram ops).draws = s.draws := rfl

/-! ### `advanceCursor` -/

theorem advanceCursor_eq (s : State) :
    advanceCursor s =
      { s with
        px := if s.px.toNat + 1 < s.lw.toNat then s.px + 1#16 else 0#16
        py := if s.px.toNat + 1 < s.lw.toNat then s.py else s.py + 1#16 } := by
  unfold advanceCursor
  split <;> rfl

@[simp] theorem advanceCursor_cfg (s : State) : (advanceCursor s).cfg = s.cfg := by
  rw [advanceCursor_eq]
@[simp] theorem advanceCursor_ie (s : State) : (advanceCursor s).ie = s.ie := by
  rw [advanceCursor_eq]
@[simp] theorem advanceCursor_done (s : State) : (advanceCursor s).done = s.done := by
  rw [advanceCursor_eq]
@[simp] theorem advanceCursor_err (s : State) : (advanceCursor s).err = s.err := by
  rw [advanceCursor_eq]
@[simp] theorem advanceCursor_errCode (s : State) : (advanceCursor s).errCode = s.errCode := by
  rw [advanceCursor_eq]
@[simp] theorem advanceCursor_errInfo (s : State) : (advanceCursor s).errInfo = s.errInfo := by
  rw [advanceCursor_eq]
@[simp] theorem advanceCursor_result (s : State) : (advanceCursor s).result = s.result := by
  rw [advanceCursor_eq]
@[simp] theorem advanceCursor_width (s : State) : (advanceCursor s).width = s.width := by
  rw [advanceCursor_eq]
@[simp] theorem advanceCursor_height (s : State) : (advanceCursor s).height = s.height := by
  rw [advanceCursor_eq]
@[simp] theorem advanceCursor_palK (s : State) : (advanceCursor s).palK = s.palK := by
  rw [advanceCursor_eq]
@[simp] theorem advanceCursor_palN (s : State) : (advanceCursor s).palN = s.palN := by
  rw [advanceCursor_eq]
@[simp] theorem advanceCursor_op (s : State) : (advanceCursor s).op = s.op := by
  rw [advanceCursor_eq]
@[simp] theorem advanceCursor_lw (s : State) : (advanceCursor s).lw = s.lw := by
  rw [advanceCursor_eq]
@[simp] theorem advanceCursor_lh (s : State) : (advanceCursor s).lh = s.lh := by
  rw [advanceCursor_eq]
@[simp] theorem advanceCursor_px (s : State) : (advanceCursor s).px = (if s.px.toNat + 1 < s.lw.toNat then s.px + 1#16 else 0#16) := by
  rw [advanceCursor_eq]
@[simp] theorem advanceCursor_py (s : State) : (advanceCursor s).py = (if s.px.toNat + 1 < s.lw.toNat then s.py else s.py + 1#16) := by
  rw [advanceCursor_eq]
@[simp] theorem advanceCursor_mem (s : State) : (advanceCursor s).mem = s.mem := by
  rw [advanceCursor_eq]
@[simp] theorem advanceCursor_pending (s : State) : (advanceCursor s).pending = s.pending := by
  rw [advanceCursor_eq]
@[simp] theorem advanceCursor_log (s : State) : (advanceCursor s).log = s.log := by
  rw [advanceCursor_eq]
@[simp] theorem advanceCursor_schedule (s : State) : (advanceCursor s).schedule = s.schedule := by
  rw [advanceCursor_eq]
@[simp] theorem advanceCursor_draws (s : State) : (advanceCursor s).draws = s.draws := by
  rw [advanceCursor_eq]

/-! ### Views -/

@[simp] theorem busy_recordError (c : ErrCode) (i : Word) (s : State) : (recordError c i s).busy = s.busy := rfl
@[simp] theorem busy_clearError (s : State) : (clearError s).busy = s.busy := rfl
@[simp] theorem busy_clearDone (s : State) : (clearDone s).busy = s.busy := rfl
@[simp] theorem busy_accept (w : Word) (s : State) : (accept w s).busy = true := rfl
@[simp] theorem busy_complete (s : State) : (complete s).busy = false := rfl
@[simp] theorem busy_useDraws (n : Nat) (s : State) : (useDraws n s).busy = s.busy := rfl
@[simp] theorem busy_logEvent (x : Access) (r : Response) (s : State) : (logEvent x r s).busy = s.busy := rfl
@[simp] theorem busy_softReset (s : State) : (softReset s).busy = false := rfl
@[simp] theorem dithering_recordError (c : ErrCode) (i : Word) (s : State) :
    (recordError c i s).dithering = s.dithering := rfl
@[simp] theorem dithering_accept (w : Word) (s : State) : (accept w s).dithering = isDitherWord w := rfl
@[simp] theorem dithering_complete (s : State) : (complete s).dithering = false := rfl
@[simp] theorem dithering_softReset (s : State) : (softReset s).dithering = false := rfl

/-- BUSY is 1 exactly when `OP` holds a word (R29). -/
theorem busy_iff (s : State) : s.busy = true ↔ ∃ w, s.op = some w := by
  simp [State.busy, Option.isSome_iff_exists]

/-- BUSY is 0 exactly when `OP` is none (R29). -/
theorem not_busy_iff (s : State) : s.busy = false ↔ s.op = none := by
  simp [State.busy]

/-- A running DITHER makes the block busy. -/
theorem busy_of_dithering {s : State} (h : s.dithering = true) : s.busy = true := by
  unfold State.dithering at h
  unfold State.busy
  cases hop : s.op with
  | none => simp [hop] at h
  | some w => rfl

theorem dithering_of_op {s : State} {w : Word} (h : s.op = some w) : s.dithering = isDitherWord w := by
  simp [State.dithering, h]

theorem not_dithering_of_idle {s : State} (h : s.op = none) : s.dithering = false := by
  simp [State.dithering, h]

end Sys2Proof.Machine
end

