-- ==== Sys2Proof/Laws/Planes.lean ====
section
/-! SUPPORT. The laws of planes and of the memory: reads after writes, the canonical form, and the frame checks. -/

namespace Sys2Proof.Machine

/-! ### One plane -/

@[simp] theorem Plane.read_nil (p : Nat) : Plane.read [] p = none := rfl

/-- A cell just written reads as the sample written. -/
@[simp] theorem Plane.read_write_same (m : Plane) (p : Nat) (v : Byte) :
    Plane.read (Plane.write m p v) p = some v := by
  induction m with
  | nil => simp [Plane.write, Plane.read]
  | cons c m ih =>
    obtain ⟨a, w⟩ := c
    unfold Plane.write
    split
    · simp [Plane.read]
    · split
      · simp [Plane.read]
      · rename_i h
        simp [Plane.read, Ne.symm h, ih]

/-- A write leaves every other cell alone. -/
theorem Plane.read_write_other (m : Plane) {p q : Nat} (v : Byte) (h : q ≠ p) :
    Plane.read (Plane.write m p v) q = Plane.read m q := by
  induction m with
  | nil => simp [Plane.write, Plane.read, Ne.symm h]
  | cons c m ih =>
    obtain ⟨a, w⟩ := c
    unfold Plane.write
    split
    · simp [Plane.read, Ne.symm h]
    · split
      · rename_i h2
        subst h2
        simp [Plane.read, Ne.symm h]
      · simp [Plane.read, ih]

theorem Plane.read_write (m : Plane) (p q : Nat) (v : Byte) :
    Plane.read (Plane.write m p v) q = if q = p then some v else Plane.read m q := by
  split
  · subst_vars; simp
  · exact Plane.read_write_other m v ‹_›

/-- The cells a write lists. -/
theorem Plane.mem_write {m : Plane} {p : Nat} {v : Byte} {c : Host.Cell} (h : c ∈ Plane.write m p v) :
    c = (p, v) ∨ c ∈ m := by
  induction m with
  | nil => simpa [Plane.write] using h
  | cons d m ih =>
    obtain ⟨a, w⟩ := d
    unfold Plane.write at h
    split at h
    · simpa using h
    · split at h
      · rcases List.mem_cons.1 h with h | h
        · exact .inl h
        · exact .inr (List.mem_cons_of_mem _ h)
      · rcases List.mem_cons.1 h with h | h
        · exact .inr (h ▸ List.mem_cons_self)
        · rcases ih h with h | h
          · exact .inl h
          · exact .inr (List.mem_cons_of_mem _ h)

/-- A write keeps the canonical form. -/
theorem Plane.wf_write {m : Plane} (h : Plane.wf m) (p : Nat) (v : Byte) : Plane.wf (Plane.write m p v) := by
  induction m with
  | nil => simp [Plane.write, Plane.wf]
  | cons c m ih =>
    obtain ⟨a, w⟩ := c
    have h1 := List.pairwise_cons.1 h
    unfold Plane.write
    split
    · rename_i hp
      refine List.pairwise_cons.2 ⟨?_, h⟩
      intro d hd
      rcases List.mem_cons.1 hd with hd | hd
      · subst hd; exact hp
      · exact Nat.lt_trans hp (h1.1 d hd)
    · split
      · rename_i hp
        subst hp
        exact List.pairwise_cons.2 ⟨h1.1, h1.2⟩
      · rename_i hp1 hp2
        refine List.pairwise_cons.2 ⟨?_, ih h1.2⟩
        intro d hd
        rcases Plane.mem_write hd with hd | hd
        · subst hd; show a < p; omega
        · exact h1.1 d hd

/-- A write below n keeps every listed cell below n. -/
theorem Plane.within_write {m : Plane} {n p : Nat} (h : Plane.within m n) (hp : p < n) (v : Byte) :
    Plane.within (Plane.write m p v) n := by
  intro c hc
  rcases Plane.mem_write hc with hc | hc
  · subst hc; exact hp
  · exact h c hc

theorem Plane.wf_writeBytes {m : Plane} (h : Plane.wf m) (p : Nat) (vs : List Byte) :
    Plane.wf (Plane.writeBytes m p vs) := by
  induction vs generalizing m p with
  | nil => exact h
  | cons v vs ih => exact ih (Plane.wf_write h p v) (p + 1)

theorem Plane.within_writeBytes {m : Plane} {n p : Nat} (vs : List Byte) (h : Plane.within m n)
    (hp : p + vs.length ≤ n) : Plane.within (Plane.writeBytes m p vs) n := by
  induction vs generalizing m p with
  | nil => exact h
  | cons v vs ih =>
    simp only [List.length_cons] at hp
    exact ih (Plane.within_write h (by omega) v) (by omega)

/-- Each cell a multi-byte write covers takes its byte, and every other cell is left alone. -/
theorem Plane.read_writeBytes (m : Plane) (p q : Nat) (vs : List Byte) :
    Plane.read (Plane.writeBytes m p vs) q =
      if p ≤ q ∧ q < p + vs.length then vs[q - p]? else Plane.read m q := by
  induction vs generalizing m p with
  | nil => simp [Plane.writeBytes]
  | cons v vs ih =>
    rw [Plane.writeBytes, ih, Plane.read_write]
    simp only [List.length_cons]
    by_cases h1 : q = p
    · subst h1
      rw [if_neg (by omega), if_pos rfl, if_pos (by omega)]
      simp
    · rw [if_neg h1]
      by_cases h2 : p + 1 ≤ q ∧ q < p + 1 + vs.length
      · rw [if_pos h2, if_pos (by omega)]
        rw [show q - p = (q - (p + 1)) + 1 from by omega, List.getElem?_cons_succ]
      · rw [if_neg h2, if_neg (by omega)]

/-- After `clearBelow` the cells below n hold no value and the others are kept (R243). -/
theorem Plane.read_clearBelow (m : Plane) (n p : Nat) :
    Plane.read (Plane.clearBelow m n) p = if p < n then none else Plane.read m p := by
  unfold Plane.clearBelow
  induction m with
  | nil => simp
  | cons c m ih =>
    obtain ⟨a, w⟩ := c
    rw [List.filter_cons]
    split
    · rename_i ha
      have ha' : n ≤ a := by simpa using ha
      simp only [Plane.read, ih]
      by_cases hp : p < n
      · rw [if_pos hp, if_pos hp, if_neg (by omega)]
      · simp [hp]
    · rename_i ha
      have ha' : ¬ n ≤ a := by simpa using ha
      rw [ih, Plane.read]
      by_cases hp : p < n
      · simp [hp]
      · rw [if_neg hp, if_neg hp, if_neg (by omega)]

theorem Plane.wf_clearBelow {m : Plane} (h : Plane.wf m) (n : Nat) : Plane.wf (Plane.clearBelow m n) :=
  List.Pairwise.filter _ h

theorem Plane.within_clearBelow {m : Plane} {k : Nat} (h : Plane.within m k) (n : Nat) :
    Plane.within (Plane.clearBelow m n) k := fun c hc => h c (List.mem_filter.1 hc).1

/-- A cell that reads as a sample is listed. -/
theorem Plane.mem_of_read {m : Plane} {p : Nat} {v : Byte} (h : Plane.read m p = some v) : (p, v) ∈ m := by
  induction m with
  | nil => simp at h
  | cons c m ih =>
    obtain ⟨a, w⟩ := c
    unfold Plane.read at h
    split at h
    · rename_i ha
      cases h; subst ha
      exact List.mem_cons_self
    · exact List.mem_cons_of_mem _ (ih h)

/-- In canonical form a listed cell reads as its entry. -/
theorem Plane.read_of_mem {m : Plane} (hw : Plane.wf m) {p : Nat} {v : Byte} (h : (p, v) ∈ m) :
    Plane.read m p = some v := by
  induction m with
  | nil => simp at h
  | cons c m ih =>
    obtain ⟨a, w⟩ := c
    have h1 := List.pairwise_cons.1 hw
    unfold Plane.read
    rcases List.mem_cons.1 h with h | h
    · cases h; simp
    · have := h1.1 _ h
      rw [if_neg (by simp only at this; omega)]
      exact ih h1.2 h

/-- A cell of a plane within n that holds a value has an index below n. -/
theorem Plane.lt_of_read {m : Plane} {n p : Nat} {v : Byte} (h : Plane.within m n)
    (hr : Plane.read m p = some v) : p < n := h _ (Plane.mem_of_read hr)

/-- No cell is found unwritten exactly when every cell below n holds a value (R185). -/
theorem Plane.firstUnwritten_none (m : Plane) (n : Nat) :
    Plane.firstUnwritten m n = none ↔ ∀ p, p < n → (Plane.read m p).isSome = true := by
  unfold Plane.firstUnwritten
  rw [List.find?_eq_none]
  simp only [List.mem_range]
  constructor
  · intro h p hp
    have := h p hp
    cases hr : Plane.read m p <;> simp_all
  · intro h p hp
    have := h p hp
    cases hr : Plane.read m p <;> simp_all

/-- The cell found unwritten is the one with the smallest index below n (R185). -/
theorem Plane.firstUnwritten_some (m : Plane) (n p : Nat) :
    Plane.firstUnwritten m n = some p ↔
      p < n ∧ Plane.read m p = none ∧ ∀ q, q < p → (Plane.read m q).isSome = true := by
  unfold Plane.firstUnwritten
  rw [List.find?_range_eq_some]
  simp only [Option.isNone_iff_eq_none, List.mem_range, Bool.not_eq_true', Option.isNone_eq_false_iff]
  constructor
  · rintro ⟨h1, h2, h3⟩; exact ⟨h2, h1, h3⟩
  · rintro ⟨h1, h2, h3⟩; exact ⟨h2, h1, h3⟩

/-! ### The memory -/

@[simp] theorem Memory.plane_setPlane_same (mem : Memory) (c : Channel) (m : Plane) :
    (mem.setPlane c m).plane c = m := by cases c <;> rfl

theorem Memory.plane_setPlane_other (mem : Memory) {c d : Channel} (m : Plane) (h : d ≠ c) :
    (mem.setPlane c m).plane d = mem.plane d := by cases c <;> cases d <;> first | rfl | exact absurd rfl h

@[simp] theorem Memory.plane_clearBelow (mem : Memory) (n : Nat) (c : Channel) :
    (mem.clearBelow n).plane c = Plane.clearBelow (mem.plane c) n := by cases c <;> rfl

theorem Memory.read_write (mem : Memory) (c d : Channel) (p q : Nat) (v : Byte) :
    (mem.write c p v).read d q = if d = c ∧ q = p then some v else mem.read d q := by
  unfold Memory.read Memory.write
  by_cases h : d = c
  · subst h
    simp [Plane.read_write]
  · simp [h, Memory.plane_setPlane_other]

/-- The cells an access covers take its bytes; every other cell of every plane is left alone (R70). -/
theorem Memory.read_writeBytes (mem : Memory) (c d : Channel) (p q : Nat) (vs : List Byte) :
    (mem.writeBytes c p vs).read d q =
      if d = c ∧ p ≤ q ∧ q < p + vs.length then vs[q - p]? else mem.read d q := by
  unfold Memory.read Memory.writeBytes
  by_cases h : d = c
  · subst h
    simp [Plane.read_writeBytes]
  · simp [h, Memory.plane_setPlane_other]

theorem Memory.read_clearBelow (mem : Memory) (n : Nat) (c : Channel) (p : Nat) :
    (mem.clearBelow n).read c p = if p < n then none else mem.read c p := by
  simp [Memory.read, Plane.read_clearBelow]

theorem Memory.wf_iff (mem : Memory) : mem.wf ↔ ∀ c, Plane.wf (mem.plane c) :=
  ⟨fun h c => by cases c <;> simp_all [Memory.plane], fun h => ⟨h .r, h .g, h .b⟩⟩

theorem Memory.within_iff (mem : Memory) (n : Nat) : mem.within n ↔ ∀ c, Plane.within (mem.plane c) n :=
  ⟨fun h c => by
    obtain ⟨hr, hg, hb⟩ := h
    cases c
    · exact hr
    · exact hg
    · exact hb, fun h => ⟨h .r, h .g, h .b⟩⟩

theorem Memory.wf_setPlane {mem : Memory} (h : mem.wf) (c : Channel) {m : Plane} (hm : Plane.wf m) :
    (mem.setPlane c m).wf := by
  rw [Memory.wf_iff] at h ⊢
  intro d
  by_cases hd : d = c
  · subst hd; simpa using hm
  · rw [Memory.plane_setPlane_other mem m hd]; exact h d

theorem Memory.within_setPlane {mem : Memory} {n : Nat} (h : mem.within n) (c : Channel) {m : Plane}
    (hm : Plane.within m n) : (mem.setPlane c m).within n := by
  rw [Memory.within_iff] at h ⊢
  intro d
  by_cases hd : d = c
  · subst hd; simpa using hm
  · rw [Memory.plane_setPlane_other mem m hd]; exact h d

/-- Every memory operation keeps the canonical form. -/
theorem Memory.wf_writeBytes {mem : Memory} (h : mem.wf) (c : Channel) (p : Nat) (vs : List Byte) :
    (mem.writeBytes c p vs).wf :=
  Memory.wf_setPlane h c (Plane.wf_writeBytes ((Memory.wf_iff mem).1 h c) p vs)

theorem Memory.wf_write {mem : Memory} (h : mem.wf) (c : Channel) (p : Nat) (v : Byte) :
    (mem.write c p v).wf :=
  Memory.wf_setPlane h c (Plane.wf_write ((Memory.wf_iff mem).1 h c) p v)

theorem Memory.within_writeBytes {mem : Memory} {n p : Nat} (h : mem.within n) (c : Channel) (vs : List Byte)
    (hp : p + vs.length ≤ n) : (mem.writeBytes c p vs).within n :=
  Memory.within_setPlane h c (Plane.within_writeBytes vs ((Memory.within_iff mem n).1 h c) hp)

theorem Memory.wf_clearBelow {mem : Memory} (h : mem.wf) (n : Nat) : (mem.clearBelow n).wf :=
  ⟨Plane.wf_clearBelow h.1 n, Plane.wf_clearBelow h.2.1 n, Plane.wf_clearBelow h.2.2 n⟩

theorem Memory.within_clearBelow {mem : Memory} {k : Nat} (h : mem.within k) (n : Nat) :
    (mem.clearBelow n).within k :=
  ⟨Plane.within_clearBelow h.1 n, Plane.within_clearBelow h.2.1 n, Plane.within_clearBelow h.2.2 n⟩

/-- The frame check finds no cell exactly when every cell of the frame holds a value (R185). -/
theorem Memory.firstUnwritten_none (mem : Memory) (n : Nat) :
    mem.firstUnwritten n = none ↔ frameWritten mem n := by
  unfold Memory.firstUnwritten frameWritten Memory.read
  constructor
  · intro h c p hp
    have hr : Plane.firstUnwritten mem.r n = none := by
      cases hr : Plane.firstUnwritten mem.r n <;> simp_all
    have hg : Plane.firstUnwritten mem.g n = none := by
      cases hg : Plane.firstUnwritten mem.g n <;> simp_all
    have hb : Plane.firstUnwritten mem.b n = none := by
      cases hb : Plane.firstUnwritten mem.b n <;> simp_all
    cases c
    · exact (Plane.firstUnwritten_none mem.r n).1 hr p hp
    · exact (Plane.firstUnwritten_none mem.g n).1 hg p hp
    · exact (Plane.firstUnwritten_none mem.b n).1 hb p hp
  · intro h
    rw [(Plane.firstUnwritten_none mem.r n).2 (fun p hp => h .r p hp),
      (Plane.firstUnwritten_none mem.g n).2 (fun p hp => h .g p hp),
      (Plane.firstUnwritten_none mem.b n).2 (fun p hp => h .b p hp)]

end Sys2Proof.Machine
end

