-- ==== Sys2Proof/Laws/Bus.lean ====
section
/-! SUPPORT. What a host access can do, said once: the cases of a read, of a write, and of a host step. -/

namespace Sys2Proof.Machine

/-! ### Reads change nothing but the draw counter (R67, R69, R72) -/

theorem hostReadReg_state (r : Reg) (s : State) : ∃ k, (hostReadReg r s).2 = useDraws k s := by
  unfold hostReadReg
  split
  · exact ⟨1, rfl⟩
  · exact ⟨0, rfl⟩

theorem hostReadPlane_state (c : Channel) (p : Nat) (n : Width) (s : State) :
    ∃ k, (hostReadPlane c p n s).2 = useDraws k s := by
  unfold hostReadPlane
  split
  · exact ⟨1, rfl⟩
  · exact ⟨_, rfl⟩

theorem hostRead_state (a : Offset) (n : Width) (s : State) : ∃ k, (hostRead a n s).2 = useDraws k s := by
  unfold hostRead
  split
  · exact ⟨0, rfl⟩
  · exact hostReadReg_state _ s
  · exact hostReadPlane_state _ _ n s

/-- A read of cells that all hold values uses no draw and gives the cells (R69). -/
theorem readCells_written (m : Plane) (n p k : Nat) (vs : List Byte) (hl : vs.length = n)
    (h : ∀ j, j < n → Plane.read m (p + j) = vs[j]?) : readCells m n p k = (vs, 0) := by
  induction n generalizing p vs with
  | zero => simp [readCells, List.length_eq_zero_iff.1 hl]
  | succ n ih =>
    cases vs with
    | nil => simp at hl
    | cons v vs =>
      have h0 := h 0 (by omega)
      simp only [Nat.add_zero, List.getElem?_cons_zero] at h0
      have hrest := ih (p + 1) vs (by simpa using hl) (by
        intro j hj
        have := h (j + 1) (by omega)
        rw [show p + 1 + j = p + (j + 1) by omega, this, List.getElem?_cons_succ])
      rw [readCells, h0]
      simp [hrest]

/-! ### Accesses to a register (R63, R67, R68) -/

/-- A 4-byte access at a 4-aligned offset of the register window has a register as its target (R63). -/
theorem target_register {k : Nat} {a : Offset} (h : a.toNat < 0x1000) (h4 : a.toNat % 4 = 0) :
    target k a .w4 = some (.register a.toNat) := by
  simp [target, h, h4]

/-- A register read that is no draw gives the register's value and changes nothing but the log (R67). -/
theorem hostAccess_readReg {a : Offset} {s : State} (h : a.toNat < 0x1000) (h4 : a.toNat % 4 = 0)
    (hr : (regAt a.toNat).drawnWhileBusy = false ∨ s.busy = false) :
    hostAccess (.read a .w4) s =
      .next (logEvent (.read a .w4) (.data (.d4 (readReg (regAt a.toNat) s))) s) := by
  have hb : (s.busy && (regAt a.toNat).drawnWhileBusy) = false := by
    rcases hr with hr | hr <;> simp [hr]
  simp [hostAccess, hostRead, target_register h h4, hostReadReg, hb]

/-- A register write is the register's rule, and its response is logged (R68). -/
theorem hostAccess_writeReg {a : Offset} {v : Word} {s t : State} (h : a.toNat < 0x1000) (h4 : a.toNat % 4 = 0)
    (ht : hostWriteReg (regAt a.toNat) v s = .next t) :
    hostAccess (.write a (.d4 v)) s = .next (logEvent (.write a (.d4 v)) .ok t) := by
  simp [hostAccess, BusData.width, target_register h h4, hostWriteTarget, BusData.word, ht]

/-- A register write that faults faults the access. -/
theorem hostAccess_writeReg_fault {a : Offset} {v : Word} {s : State} {f : Fault} (h : a.toNat < 0x1000)
    (h4 : a.toNat % 4 = 0) (ht : hostWriteReg (regAt a.toNat) v s = .fault f) :
    hostAccess (.write a (.d4 v)) s = .fault f := by
  simp [hostAccess, BusData.width, target_register h h4, hostWriteTarget, BusData.word, ht]

/-! ### Writes -/

/-- What a write that passes the bus checks can do to the block. -/
inductive BlockEffect (s : State) : Host.Outcome State Fault Refusal → Prop where
  /-- A read-only or reserved register (R68). -/
  | ignored : BlockEffect s (.next s)
  /-- An error is recorded and nothing else happens (R102, R207). -/
  | error (c : ErrCode) (i : Word) (h : c ≠ .none) : BlockEffect s (.next (recordError c i s))
  /-- `CTRL` without bit 1 (R25). -/
  | enable (b : Bool) : BlockEffect s (.next { s with ie := b })
  /-- `CTRL` with bit 1 (R242). -/
  | reset : BlockEffect s (.next (softReset s))
  /-- `STATUS` (R28). -/
  | status (v : Word) : BlockEffect s (.next (writeStatus v s))
  /-- `WIDTH` while idle (R37). -/
  | width (v : Half) (h : s.busy = false) : BlockEffect s (.next { s with width := v })
  /-- `HEIGHT` while idle (R38). -/
  | height (v : Half) (h : s.busy = false) : BlockEffect s (.next { s with height := v })
  /-- `PAL_K` while idle (R39). -/
  | palK (v : Word) (h : s.busy = false) : BlockEffect s (.next { s with palK := v })
  /-- Cells of a plane while idle (R70). -/
  | cells (c : Channel) (p : Nat) (vs : List Byte) (h : s.busy = false) (hp : p + vs.length ≤ s.cfg.maxPixels) :
      BlockEffect s (.next { s with mem := s.mem.writeBytes c p vs })
  /-- A command other than DITHER is accepted (R101). -/
  | accepted (w : Word) (i : Instr) (h : s.busy = false) (hw : decode w = .ok i) (hi : i ≠ .dither) :
      BlockEffect s (.next (accept w s))
  /-- A DITHER is accepted (R101). -/
  | dither (w : Word) (h : s.busy = false) (hw : decode w = .ok .dither)
      (hf : requestedFrame s ≤ s.cfg.maxPixels) (hv : frameWritten s.mem (requestedFrame s)) :
      BlockEffect s (.next (accept w s))
  /-- A DITHER over a cell without a value has no meaning (R185). -/
  | unwritten (w : Word) (c : Channel) (p : Nat) (h : s.busy = false) (hw : decode w = .ok .dither)
      (hf : requestedFrame s ≤ s.cfg.maxPixels) (hv : s.mem.firstUnwritten (requestedFrame s) = some (c, p)) :
      BlockEffect s (.fault (.unwritten c p))

theorem submit_effect (w : Word) (s : State) : BlockEffect s (submit w s) := by
  unfold submit
  split
  · exact .error _ _ (by decide)
  rename_i hb
  have hb : s.busy = false := by simpa using hb
  split
  · exact .error _ _ (by decide)
  · exact .error _ _ (by decide)
  · rename_i i hi
    split
    · rename_i hd
      subst hd
      split
      · exact .error _ _ (by decide)
      · rename_i hf
        split
        · rename_i c p hv
          exact .unwritten w c p hb hi (by omega) hv
        · rename_i hv
          exact .dither w hb hi (by omega) ((Memory.firstUnwritten_none _ _).1 hv)
    · exact .accepted w i hb hi ‹_›

theorem writeConfig_effect {stored s : State} (a : Word) (h : s.busy = false → BlockEffect s (.next stored)) :
    BlockEffect s (.next (writeConfig a stored s)) := by
  unfold writeConfig
  split
  · exact .error _ _ (by decide)
  · exact h (Bool.eq_false_iff.2 ‹_›)

theorem hostWriteReg_effect (r : Reg) (v : Word) (s : State) : BlockEffect s (hostWriteReg r v s) := by
  cases r
  case ctrl =>
    show BlockEffect s (.next (writeCtrl v s))
    unfold writeCtrl
    split
    · exact .reset
    · exact .enable _
  case status => exact .status v
  case cmd => exact submit_effect v s
  case width => exact writeConfig_effect _ (fun h => .width _ h)
  case height => exact writeConfig_effect _ (fun h => .height _ h)
  case palK => exact writeConfig_effect _ (fun h => .palK _ h)
  all_goals exact .ignored

@[simp] theorem BusData.bytes_length (d : BusData) : d.bytes.length = d.width.bytes := by cases d <;> rfl

/-- The cells of an access without a bus error exist (R66). -/
theorem target_cells_le {k : Nat} {a : Offset} {n : Width} {c : Channel} {p : Nat}
    (h : target k a n = some (.cells c p)) : p + n.bytes ≤ k := by
  unfold target at h
  repeat' split at h
  all_goals simp at h
  obtain ⟨-, rfl⟩ := h
  assumption

theorem hostWriteTarget_effect {a : Offset} {d : BusData} {t : Target} {s : State}
    (h : target s.cfg.maxPixels a d.width = some t) : BlockEffect s (hostWriteTarget a d t s) := by
  cases t with
  | register r => exact hostWriteReg_effect _ _ s
  | cells c p =>
    show BlockEffect s (.next (hostWritePlane a c p d s))
    unfold hostWritePlane
    split
    · exact .error _ _ (by decide)
    · exact .cells c p d.bytes (Bool.eq_false_iff.2 ‹_›) (by simpa using target_cells_le h)

/-! ### A host access and a host step -/

/-- What a host access can do: a read or an access with a bus error changes nothing but the log and the draw counter; any
other write has one of the block's effects, and its response is logged. -/
theorem hostAccess_cases (x : Access) (s : State) :
    (∃ r k, hostAccess x s = .next (logEvent x r (useDraws k s))) ∨
      ∃ o, BlockEffect s o ∧
        ((∃ t, o = .next t ∧ hostAccess x s = .next (logEvent x .ok t)) ∨
          ∃ c p, o = .fault (.unwritten c p) ∧ hostAccess x s = .fault (.unwritten c p)) := by
  cases x with
  | read a n =>
    obtain ⟨k, hk⟩ := hostRead_state a n s
    exact .inl ⟨(hostRead a n s).1, k, by simp [hostAccess, hk]⟩
  | write a d =>
    cases ht : target s.cfg.maxPixels a d.width with
    | none => exact .inl ⟨.busError, 0, by simp [hostAccess, ht]; rfl⟩
    | some t =>
      have he := hostWriteTarget_effect ht
      refine .inr ⟨_, he, ?_⟩
      simp only [hostAccess, ht]
      generalize hostWriteTarget a d t s = o at he
      cases he <;> simp

/-- A host step is a host access, or a turn of the wait for `IRQ`, which changes the host's program alone; a loop may
stand again at the head of the program (R98, R230). -/
theorem hostStep_cases (h : HostOp) (s : State) :
    (∃ x ops, hostStep h s = hostAccess x { s with pending := ops }) ∨
      ∃ ops, h = .waitIrq ∧ hostStep h s = .next { s with pending := ops } := by
  cases h with
  | access x => exact .inl ⟨x, s.pending, rfl⟩
  | waitIdle => exact .inl ⟨statusRead, _, rfl⟩
  | waitIrq => exact .inr ⟨_, rfl, rfl⟩

end Sys2Proof.Machine
end

