-- ==== Sys2Proof/Laws/Palette.lean ====
section
/-! SUPPORT. The laws of the palette and of the quantizer: the entries are ordered, the scan of R125 finds the smallest
closest level, and the machine's threshold form is that scan. -/

namespace Sys2Proof.Machine

/-! ### Entries (R121, R122) -/

/-- Entries do not decrease (R123, R124). -/
theorem palEntry_mono (n : Nat) {i j : Nat} (h : i ≤ j) : palEntry n i ≤ palEntry n j :=
  Nat.div_le_div_right (Nat.mul_le_mul_right 255 h)

@[simp] theorem palEntry_zero (n : Nat) : palEntry n 0 = 0 := by simp [palEntry]

theorem palEntry_last {n : Nat} (h : 2 ≤ n) : palEntry n (n - 1) = 255 := by
  unfold palEntry
  exact Nat.mul_div_cancel_left 255 (by omega)

/-- Every entry lies in 0..255 (R121). -/
theorem palEntry_le {n i : Nat} (h : i ≤ n - 1) : palEntry n i ≤ 255 := by
  unfold palEntry
  rcases Nat.eq_zero_or_pos (n - 1) with h0 | h0
  · rw [h0]; simp
  · exact Nat.div_le_of_le_mul (by nlinarith)

@[simp] theorem palSeq_length (n : Nat) : (palSeq n).length = n := by simp [palSeq]

theorem mem_palSeq {n p : Nat} : p ∈ palSeq n ↔ ∃ i, i < n ∧ palEntry n i = p := by
  simp [palSeq]

theorem palSeq_sorted (n : Nat) : (palSeq n).Pairwise (· ≤ ·) := by
  unfold palSeq
  rw [List.pairwise_map]
  exact List.Pairwise.imp (fun h => palEntry_mono n (Nat.le_of_lt h)) List.pairwise_lt_range

/-! ### The scan (R125) -/

/-- What the scan's loop ends with: a level among those met, at least as close as all of them, and where it is not the
first best it is strictly closer than it. -/
theorem nearest_foldl (v : Int) (rest : List Nat) (p : Nat) :
    let r := rest.foldl (fun best q => if distance v q < distance v best then q else best) p
    r ∈ p :: rest ∧ ∀ q ∈ p :: rest, distance v r ≤ distance v q := by
  induction rest generalizing p with
  | nil => simp
  | cons q rest ih =>
    simp only [List.foldl_cons]
    by_cases h : distance v q < distance v p
    · rw [if_pos h]
      obtain ⟨h1, h2⟩ := ih q
      refine ⟨List.mem_cons_of_mem _ h1, ?_⟩
      intro x hx
      rcases List.mem_cons.1 hx with hx | hx
      · subst hx
        exact Nat.le_trans (h2 q List.mem_cons_self) (Nat.le_of_lt h)
      · exact h2 x hx
    · rw [if_neg h]
      obtain ⟨h1, h2⟩ := ih p
      refine ⟨?_, ?_⟩
      · rcases List.mem_cons.1 h1 with h1 | h1
        · rw [h1]; exact List.mem_cons_self
        · exact List.mem_cons_of_mem _ (List.mem_cons_of_mem _ h1)
      · intro x hx
        rcases List.mem_cons.1 hx with hx | hx
        · subst hx; exact h2 x List.mem_cons_self
        · rcases List.mem_cons.1 hx with hx | hx
          · subst hx
            exact Nat.le_trans (h2 p List.mem_cons_self) (Nat.le_of_not_lt h)
          · exact h2 x (List.mem_cons_of_mem _ hx)

/-- On a sorted list the scan's loop ends with the smallest of the closest levels (R127). -/
theorem nearest_foldl_least (v : Int) (rest : List Nat) (p : Nat) (hs : (p :: rest).Pairwise (· ≤ ·)) :
    ∀ q ∈ p :: rest,
      distance v q ≤ distance v (rest.foldl (fun best q => if distance v q < distance v best then q else best) p) →
        rest.foldl (fun best q => if distance v q < distance v best then q else best) p ≤ q := by
  induction rest generalizing p with
  | nil => intro q hq _; simp at hq; subst hq; exact Nat.le_refl _
  | cons x rest ih =>
    intro q hq hd
    have hs1 := List.pairwise_cons.1 hs
    have hs2 := List.pairwise_cons.1 hs1.2
    have hpx : p ≤ x := hs1.1 x List.mem_cons_self
    simp only [List.foldl_cons] at hd ⊢
    by_cases h : distance v x < distance v p
    · rw [if_pos h] at hd ⊢
      rcases List.mem_cons.1 hq with hq | hq
      · subst hq
        have := (nearest_foldl v rest x).2 x List.mem_cons_self
        omega
      · exact ih x hs1.2 q hq hd
    · rw [if_neg h] at hd ⊢
      have hs' : (p :: rest).Pairwise (· ≤ ·) :=
        List.pairwise_cons.2 ⟨fun y hy => hs1.1 y (List.mem_cons_of_mem _ hy), hs2.2⟩
      rcases List.mem_cons.1 hq with hq | hq
      · exact ih p hs' q (hq ▸ List.mem_cons_self) hd
      · rcases List.mem_cons.1 hq with hq | hq
        · have hp := (nearest_foldl v rest p).2 p List.mem_cons_self
          have := ih p hs' p List.mem_cons_self (by rw [hq] at hd; omega)
          omega
        · exact ih p hs' q (List.mem_cons_of_mem _ hq) hd

/-- The scan answers a level of the sequence (R125). -/
theorem nearest_mem {ps : List Nat} (v : Int) (h : ps ≠ []) : nearest ps v ∈ ps := by
  cases ps with
  | nil => exact absurd rfl h
  | cons p rest => exact (nearest_foldl v rest p).1

/-- The scan's answer is at least as close as every level (R125). -/
theorem nearest_closest {ps : List Nat} (v : Int) {q : Nat} (h : q ∈ ps) :
    distance v (nearest ps v) ≤ distance v q := by
  cases ps with
  | nil => simp at h
  | cons p rest => exact (nearest_foldl v rest p).2 q h

/-- On a sorted sequence the scan's answer is the smallest of the closest levels (R127). -/
theorem nearest_least {ps : List Nat} (v : Int) (hs : ps.Pairwise (· ≤ ·)) {q : Nat} (h : q ∈ ps)
    (hd : distance v q ≤ distance v (nearest ps v)) : nearest ps v ≤ q := by
  cases ps with
  | nil => simp at h
  | cons p rest => exact nearest_foldl_least v rest p hs q h hd

/-- The one level that is in a sorted sequence, closest to v and smallest so, is the scan's answer. -/
theorem nearest_unique {ps : List Nat} (v : Int) (hs : ps.Pairwise (· ≤ ·)) {q : Nat} (h : q ∈ ps)
    (hc : ∀ p ∈ ps, distance v q ≤ distance v p) (hl : ∀ p ∈ ps, distance v p ≤ distance v q → q ≤ p) :
    nearest ps v = q := by
  have hne : ps ≠ [] := by intro h0; simp [h0] at h
  have h1 := nearest_mem v hne
  have h2 := nearest_closest v h
  have h3 := nearest_least v hs h (hc _ h1)
  have h4 := hl _ h1 h2
  omega

/-! ### The threshold form (R127) -/

/-- The entry at `levelIndex` is not above v. -/
theorem palEntry_levelIndex_le {n : Nat} (h : 2 ≤ n) (v : Nat) : palEntry n (levelIndex n v) ≤ v := by
  unfold palEntry levelIndex
  have hm : 0 < n - 1 := by omega
  have h1 : min (n - 1) (((v + 1) * (n - 1) - 1) / 255) ≤ ((v + 1) * (n - 1) - 1) / 255 := Nat.min_le_right _ _
  have h2 : ((v + 1) * (n - 1) - 1) / 255 * 255 ≤ (v + 1) * (n - 1) - 1 := Nat.div_mul_le_self _ _
  have h3 : 0 < (v + 1) * (n - 1) := Nat.mul_pos (Nat.succ_pos v) hm
  apply Nat.le_of_lt_succ
  rw [Nat.div_lt_iff_lt_mul hm]
  calc min (n - 1) (((v + 1) * (n - 1) - 1) / 255) * 255
      ≤ ((v + 1) * (n - 1) - 1) / 255 * 255 := Nat.mul_le_mul_right 255 h1
    _ ≤ (v + 1) * (n - 1) - 1 := h2
    _ < (v + 1) * (n - 1) := by omega

/-- Every entry after `levelIndex` is above v. -/
theorem lt_palEntry_of_levelIndex_lt {n v i : Nat} (h : 2 ≤ n) (hi : levelIndex n v < i) (hn : i ≤ n - 1) :
    v < palEntry n i := by
  have hm : 0 < n - 1 := by omega
  have h1 : ((v + 1) * (n - 1) - 1) / 255 < i := by
    unfold levelIndex at hi
    omega
  have h2 : (v + 1) * (n - 1) - 1 < i * 255 := by
    rwa [Nat.div_lt_iff_lt_mul (by decide)] at h1
  unfold palEntry
  rw [Nat.lt_iff_add_one_le, Nat.le_div_iff_mul_le hm]
  omega

theorem levelIndex_le (n v : Nat) : levelIndex n v ≤ n - 1 := Nat.min_le_left _ _

/-- The machine's quantizer is the scan of R125 on the palette sequence, for every N and v (R126, R127). -/
theorem quantize_eq_nearest (n v : Nat) : quantize n v = nearest (palSeq n) (v : Int) := by
  symm
  unfold quantize
  split
  · rename_i h0; subst h0; rfl
  rename_i h0
  rcases Nat.lt_or_ge n 2 with h1 | h2
  · obtain rfl : n = 1 := by omega
    have hx : levelIndex 1 v = 0 := by simp [levelIndex]
    rw [hx]
    simp [palSeq, nearest, palEntry]
  have hle := levelIndex_le n v
  have ha := palEntry_levelIndex_le h2 v
  have hmem : ∀ i, i ≤ n - 1 → palEntry n i ∈ palSeq n := fun i hi => mem_palSeq.2 ⟨i, by omega, rfl⟩
  have hbelow : ∀ i, i ≤ levelIndex n v → palEntry n i ≤ palEntry n (levelIndex n v) :=
    fun i hi => palEntry_mono n hi
  split
  · rename_i hlast
    apply nearest_unique _ (palSeq_sorted n) (hmem _ hle)
    · intro p hp
      obtain ⟨i, hi, rfl⟩ := mem_palSeq.1 hp
      have := hbelow i (by omega)
      unfold distance; omega
    · intro p hp
      obtain ⟨i, hi, rfl⟩ := mem_palSeq.1 hp
      have := hbelow i (by omega)
      unfold distance; omega
  · rename_i hnot
    have hb := lt_palEntry_of_levelIndex_lt h2 (Nat.lt_succ_self (levelIndex n v)) (by omega)
    have habove : ∀ i, levelIndex n v < i → palEntry n (levelIndex n v + 1) ≤ palEntry n i :=
      fun i hi => palEntry_mono n hi
    simp only [Nat.succ_eq_add_one] at hb
    split
    · rename_i hmid
      apply nearest_unique _ (palSeq_sorted n) (hmem _ hle)
      all_goals
        intro p hp
        obtain ⟨i, hi, rfl⟩ := mem_palSeq.1 hp
        rcases Nat.lt_or_ge (levelIndex n v) i with h | h
        · have := habove i h
          unfold distance; omega
        · have := hbelow i h
          unfold distance; omega
    · rename_i hmid
      apply nearest_unique _ (palSeq_sorted n) (hmem _ (by omega))
      all_goals
        intro p hp
        obtain ⟨i, hi, rfl⟩ := mem_palSeq.1 hp
        rcases Nat.lt_or_ge (levelIndex n v) i with h | h
        · have := habove i h
          unfold distance; omega
        · have := hbelow i h
          unfold distance; omega

/-- The quantizer's answer is a sample (R126). -/
theorem quantize_le (n v : Nat) : quantize n v ≤ 255 := by
  rw [quantize_eq_nearest]
  by_cases h : palSeq n = []
  · simp [h, nearest]
  · obtain ⟨i, hi, hp⟩ := mem_palSeq.1 (nearest_mem (v : Int) h)
    rw [← hp]
    exact palEntry_le (by omega)

@[simp] theorem quantize_empty (v : Nat) : quantize 0 v = 0 := rfl

/-- A sample's pattern reads back as the quantizer's answer. -/
@[simp] theorem u8_quantize_toNat (n v : Nat) : (u8 (quantize n v)).toNat = quantize n v := by
  have := quantize_le n v
  simp [u8, Nat.mod_eq_of_lt (show quantize n v < 256 by omega)]

/-- N(K) is at least 2 (R120). -/
theorem two_le_effectiveSize (k : Nat) : 2 ≤ effectiveSize k := by
  unfold effectiveSize; split <;> omega

end Sys2Proof.Machine
end

