-- ==== Sys2Proof/Laws/SatAdd.lean ====
section
/-! SUPPORT. The laws of the saturating add and of the scaled delta (42_saturating_add.md, 43_dither.md R174, R175). -/

namespace Sys2Proof.Machine

/-- The saturated sum by cases (R150). -/
theorem satAdd8_cases (v : Nat) (d : Int) :
    satAdd8 v d = if (v : Int) + d < 0 then 0 else if 255 < (v : Int) + d then 255 else ((v : Int) + d).toNat := by
  unfold satAdd8 clamp
  split
  · omega
  · split <;> omega

/-- The saturated sum is a sample. -/
theorem satAdd8_le (v : Nat) (d : Int) : satAdd8 v d ≤ 255 := by
  unfold satAdd8 clamp; omega

/-- A sample's pattern reads back as the saturated sum. -/
@[simp] theorem u8_satAdd8_toNat (v : Nat) (d : Int) : (u8 (satAdd8 v d)).toNat = satAdd8 v d := by
  have := satAdd8_le v d
  simp [u8, Nat.mod_eq_of_lt (show satAdd8 v d < 256 by omega)]

/-- A sample is the pattern of its value. -/
@[simp] theorem u8_toNat (b : Byte) : u8 b.toNat = b := by simp [u8]

/-- Nothing is added to a sample by a zero delta. -/
theorem satAdd8_zero (b : Byte) : satAdd8 b.toNat 0 = b.toNat := by
  have := b.isLt
  unfold satAdd8 clamp; omega

/-- A zero error has zero shares. -/
@[simp] theorem delta_zero (w : Int) : delta 0 w = 0 := by simp [delta, tdiv]

/-- The delta of a positive product rounds down, of a negative one up: truncation toward zero (R174). -/
theorem delta_cases (err w : Int) :
    delta err w = if 0 ≤ err * w then err * w / 16 else -(-(err * w) / 16) := by
  unfold delta tdiv
  split
  · exact Int.tdiv_eq_ediv_of_nonneg ‹_›
  · have h : 0 ≤ -(err * w) := by omega
    have := Int.tdiv_eq_ediv_of_nonneg (b := 16) h
    rw [Int.neg_tdiv] at this
    omega

end Sys2Proof.Machine
end

