-- ==== Sys2Proof/Laws/Dither.lean ====
section
/-! SUPPORT. What a pixel step of a DITHER does, said once: it succeeds when the frame holds values, it changes its own
cell and its guarded neighbours as R172 says, and nothing else. -/

namespace Sys2Proof.Machine

/-! ### Cell indexes (R45, R74) -/

/-- A pixel of the frame has a cell of the frame. -/
theorem cellIndex_lt {lw lh x y : Nat} (hx : x < lw) (hy : y < lh) : cellIndex lw x y < lw * lh := by
  unfold cellIndex
  calc y * lw + x < y * lw + lw := by omega
    _ = lw * (y + 1) := by ring
    _ ≤ lw * lh := Nat.mul_le_mul_left lw hy

theorem cellIndex_right (lw x y : Nat) : cellIndex lw (x + 1) y = cellIndex lw x y + 1 := by
  unfold cellIndex; omega

theorem cellIndex_below (lw x y : Nat) : cellIndex lw x (y + 1) = cellIndex lw x y + lw := by
  unfold cellIndex; ring

/-- Two pixels of the frame with one cell are one pixel. -/
theorem cellIndex_inj {lw x y x' y' : Nat} (hx : x < lw) (hx' : x' < lw)
    (h : cellIndex lw x y = cellIndex lw x' y') : x = x' ∧ y = y' := by
  unfold cellIndex at h
  have hl : 0 < lw := by omega
  have h1 : (y * lw + x) / lw = y := by
    rw [Nat.mul_comm, Nat.mul_add_div hl, Nat.div_eq_of_lt hx, Nat.add_zero]
  have h2 : (y' * lw + x') / lw = y' := by
    rw [Nat.mul_comm, Nat.mul_add_div hl, Nat.div_eq_of_lt hx', Nat.add_zero]
  have hy : y = y' := by rw [← h1, ← h2, h]
  subst hy
  exact ⟨by omega, rfl⟩

/-! ### Diffusion (R172, R173, R176) -/

/-- The cell of a target. -/
def Share.cell (lw : Nat) (t : Share) : Nat := cellIndex lw t.x t.y

/-- A cell's sample after a share of the error has been added to it (R176). -/
def addShare (err weight : Int) (old : Option Byte) : Option Byte :=
  old.map (fun b => u8 (satAdd8 b.toNat (delta err weight)))

/-- Diffusion over distinct targets that hold values: it succeeds, each target takes its share, every other cell is left
alone, and the plane's form is kept. -/
theorem diffuseAll_spec (lw : Nat) (err : Int) (ts : List Share) (m : Plane)
    (hd : (ts.map (Share.cell lw)).Nodup) (hv : ∀ t ∈ ts, (Plane.read m (t.cell lw)).isSome = true) :
    ∃ m', diffuseAll lw err ts m = .ok m' ∧
      (∀ q, Plane.read m' q =
        match ts.find? (fun t => decide (t.cell lw = q)) with
        | some t => addShare err t.weight (Plane.read m q)
        | none => Plane.read m q) ∧
      (Plane.wf m → Plane.wf m') ∧
      (∀ n, Plane.within m n → (∀ t ∈ ts, t.cell lw < n) → Plane.within m' n) := by
  induction ts generalizing m with
  | nil => exact ⟨m, rfl, fun q => rfl, id, fun n h _ => h⟩
  | cons t ts ih =>
    obtain ⟨hn, hd'⟩ := List.nodup_cons.1 hd
    obtain ⟨old, hold⟩ := Option.isSome_iff_exists.1 (hv t List.mem_cons_self)
    have hstep : diffuse lw err t m =
        .ok (Plane.write m (t.cell lw) (u8 (satAdd8 old.toNat (delta err t.weight)))) := by
      unfold diffuse
      rw [show cellIndex lw t.x t.y = t.cell lw from rfl, hold]
    have hne : ∀ u ∈ ts, u.cell lw ≠ t.cell lw := by
      intro u hu h
      exact hn (List.mem_map.2 ⟨u, hu, h⟩)
    obtain ⟨m', h1, h2, h3, h4⟩ := ih
      (Plane.write m (t.cell lw) (u8 (satAdd8 old.toNat (delta err t.weight)))) hd'
      (by
        intro u hu
        rw [Plane.read_write_other _ _ (hne u hu)]
        exact hv u (List.mem_cons_of_mem _ hu))
    refine ⟨m', ?_, ?_, fun h => h3 (Plane.wf_write h _ _), ?_⟩
    · rw [diffuseAll, hstep]
      exact h1
    · intro q
      rw [h2 q]
      by_cases hq : t.cell lw = q
      · subst hq
        have hf : ts.find? (fun u => decide (u.cell lw = t.cell lw)) = none := by
          rw [List.find?_eq_none]
          intro u hu
          simpa using hne u hu
        rw [hf, List.find?_cons_of_pos (by simp)]
        simp [hold, addShare]
      · rw [List.find?_cons_of_neg (by simpa using hq), Plane.read_write_other _ _ (Ne.symm hq)]
    · intro n hw ht
      exact h4 n (Plane.within_write hw (ht t List.mem_cons_self) _) (fun u hu => ht u (List.mem_cons_of_mem _ hu))

/-- Every target is a pixel of the frame (R173). -/
theorem shares_inFrame {lw lh x y : Nat} (hx : x < lw) (hy : y < lh) :
    ∀ t ∈ shares lw lh x y, t.x < lw ∧ t.y < lh := by
  intro t ht
  simp only [shares, List.mem_append, List.mem_ite_nil_right, List.mem_singleton] at ht
  rcases ht with ((⟨h, rfl⟩ | ⟨h, rfl⟩) | ⟨h, rfl⟩) | ⟨h, rfl⟩ <;> simp only <;> omega

/-- No two targets share a cell, and none is the pixel's own (R172: "The four cells `diffuse` writes in one pixel step are
distinct"). -/
theorem shares_distinct {lw lh x y : Nat} (hx : x < lw) :
    ((shares lw lh x y).map (Share.cell lw)).Nodup ∧
      ∀ t ∈ shares lw lh x y, cellIndex lw x y < t.cell lw := by
  unfold shares Share.cell cellIndex
  have e1 : (y + 1) * lw = y * lw + lw := by ring
  constructor
  · by_cases h1 : x + 1 < lw <;> by_cases h2 : y + 1 < lh <;> by_cases h3 : 0 < x <;>
      simp [h1, h2, h3, e1] <;> omega
  · intro t ht
    simp only [List.mem_append, List.mem_ite_nil_right, List.mem_singleton] at ht
    rcases ht with ((⟨h, rfl⟩ | ⟨h, rfl⟩) | ⟨h, rfl⟩) | ⟨h, rfl⟩ <;> simp only [e1] <;> omega

/-! ### The pixel step on one plane (R172) -/

/-- The error of a pixel whose sample is `old` (R172). -/
def pixelError (n : Nat) (old : Byte) : Int := (old.toNat : Int) - (quantize n old.toNat : Int)

/-- The pixel step on one plane: with a value in every cell of the frame it succeeds; its own cell takes Q(old), each
target takes its share, every other cell is left alone, and the plane's form is kept. -/
theorem pixelPlane_spec {n lw lh x y : Nat} {m : Plane} (hx : x < lw) (hy : y < lh)
    (hv : ∀ p, p < lw * lh → (Plane.read m p).isSome = true) {old : Byte}
    (hold : Plane.read m (cellIndex lw x y) = some old) :
    ∃ m', pixelPlane n lw lh x y m = .ok m' ∧
      (∀ q, Plane.read m' q =
        if q = cellIndex lw x y then some (u8 (quantize n old.toNat))
        else
          match (shares lw lh x y).find? (fun t => decide (t.cell lw = q)) with
          | some t => addShare (pixelError n old) t.weight (Plane.read m q)
          | none => Plane.read m q) ∧
      (Plane.wf m → Plane.wf m') ∧
      (∀ k, Plane.within m k → lw * lh ≤ k → Plane.within m' k) := by
  obtain ⟨hd, hlt⟩ := shares_distinct (lh := lh) (y := y) hx
  have hin := shares_inFrame hx hy
  have hcell : ∀ t ∈ shares lw lh x y, t.cell lw < lw * lh := fun t ht =>
    cellIndex_lt (hin t ht).1 (hin t ht).2
  obtain ⟨m', h1, h2, h3, h4⟩ := diffuseAll_spec lw (pixelError n old) (shares lw lh x y)
    (Plane.write m (cellIndex lw x y) (u8 (quantize n old.toNat))) hd
    (by
      intro t ht
      rw [Plane.read_write_other _ _ (Nat.ne_of_gt (hlt t ht))]
      exact hv _ (hcell t ht))
  refine ⟨m', ?_, ?_, fun h => h3 (Plane.wf_write h _ _), ?_⟩
  · unfold pixelPlane
    rw [hold]
    exact h1
  · intro q
    rw [h2 q]
    by_cases hq : q = cellIndex lw x y
    · subst hq
      have hf : (shares lw lh x y).find? (fun t => decide (t.cell lw = cellIndex lw x y)) = none := by
        rw [List.find?_eq_none]
        intro t ht
        have := hlt t ht
        simp only [decide_eq_true_eq]
        omega
      rw [hf, if_pos rfl]
      simp
    · rw [if_neg hq, Plane.read_write_other _ _ hq]
  · intro k hk hle
    exact h4 k (Plane.within_write hk (Nat.lt_of_lt_of_le (cellIndex_lt hx hy) hle) _)
      (fun t ht => Nat.lt_of_lt_of_le (hcell t ht) hle)

/-- The share a cell of the frame gets from the pixel step at (x, y), by its index (R173). -/
theorem shares_find {lw lh x y : Nat} (hx : x < lw) (q : Nat) :
    (shares lw lh x y).find? (fun t => decide (t.cell lw = q)) =
      if x + 1 < lw ∧ q = cellIndex lw x y + 1 then some { x := x + 1, y := y, weight := 7 }
      else if y + 1 < lh ∧ 0 < x ∧ q + 1 = cellIndex lw x y + lw then some { x := x - 1, y := y + 1, weight := 3 }
      else if y + 1 < lh ∧ q = cellIndex lw x y + lw then some { x := x, y := y + 1, weight := 5 }
      else if y + 1 < lh ∧ x + 1 < lw ∧ q = cellIndex lw x y + lw + 1 then
        some { x := x + 1, y := y + 1, weight := 1 }
      else none := by
  unfold shares Share.cell cellIndex
  have e1 : (y + 1) * lw = y * lw + lw := by ring
  by_cases h1 : x + 1 < lw <;> by_cases h2 : y + 1 < lh <;> by_cases h3 : 0 < x <;>
    simp only [h1, h2, h3, e1, if_true, if_false, true_and, false_and, and_self, and_true, List.nil_append,
      List.append_nil, List.cons_append, List.find?_cons, List.find?_nil] <;>
    (repeat' split) <;> simp_all <;> omega

/-! ### The pixel step on the planes (R172, R182) -/

/-- What `pixelMemory` does to each plane is what `pixelPlane` does to it alone (R182). -/
theorem pixelMemory_ok {n lw lh x y : Nat} {mem mem' : Memory} (h : pixelMemory n lw lh x y mem = .ok mem')
    (c : Channel) : pixelPlane n lw lh x y (mem.plane c) = .ok (mem'.plane c) := by
  unfold pixelMemory at h
  split at h
  · simp at h
  · rename_i r hr
    split at h
    · simp at h
    · rename_i g hg
      split at h
      · simp at h
      · rename_i b hb
        cases h
        cases c
        · exact hr
        · exact hg
        · exact hb

/-- If each plane's step succeeds, the memory's does. -/
theorem pixelMemory_of_planes {n lw lh x y : Nat} {mem : Memory}
    (h : ∀ c, ∃ m', pixelPlane n lw lh x y (mem.plane c) = .ok m') :
    ∃ mem', pixelMemory n lw lh x y mem = .ok mem' := by
  obtain ⟨r, hr⟩ := h .r
  obtain ⟨g, hg⟩ := h .g
  obtain ⟨b, hb⟩ := h .b
  simp only [Memory.plane] at hr hg hb
  exact ⟨{ r := r, g := g, b := b }, by simp [pixelMemory, hr, hg, hb]⟩

/-- The pixel step on the planes of a frame that holds values. -/
theorem pixelMemory_spec {n lw lh x y : Nat} {mem : Memory} (hx : x < lw) (hy : y < lh)
    (hv : frameWritten mem (lw * lh)) :
    ∃ mem', pixelMemory n lw lh x y mem = .ok mem' ∧
      (∀ c old, mem.read c (cellIndex lw x y) = some old → ∀ q,
        mem'.read c q =
          if q = cellIndex lw x y then some (u8 (quantize n old.toNat))
          else
            match (shares lw lh x y).find? (fun t => decide (t.cell lw = q)) with
            | some t => addShare (pixelError n old) t.weight (mem.read c q)
            | none => mem.read c q) ∧
      (mem.wf → mem'.wf) ∧
      (∀ k, mem.within k → lw * lh ≤ k → mem'.within k) := by
  have hall : ∀ c, ∃ m', pixelPlane n lw lh x y (mem.plane c) = .ok m' ∧
      (∀ old, mem.read c (cellIndex lw x y) = some old → ∀ q, Plane.read m' q =
        if q = cellIndex lw x y then some (u8 (quantize n old.toNat))
        else
          match (shares lw lh x y).find? (fun t => decide (t.cell lw = q)) with
          | some t => addShare (pixelError n old) t.weight (mem.read c q)
          | none => mem.read c q) ∧
      (Plane.wf (mem.plane c) → Plane.wf m') ∧
      (∀ k, Plane.within (mem.plane c) k → lw * lh ≤ k → Plane.within m' k) := by
    intro c
    obtain ⟨old, hold⟩ := Option.isSome_iff_exists.1 (hv c _ (cellIndex_lt hx hy))
    obtain ⟨m', h1, h2, h3, h4⟩ := pixelPlane_spec (n := n) hx hy (fun p hp => hv c p hp) hold
    refine ⟨m', h1, ?_, h3, h4⟩
    intro old' hold'
    rw [hold] at hold'
    cases hold'
    exact h2
  obtain ⟨mem', hm⟩ := pixelMemory_of_planes (fun c => (hall c).imp (fun _ h => h.1))
  have hp : ∀ c m', pixelPlane n lw lh x y (mem.plane c) = .ok m' → m' = mem'.plane c := by
    intro c m' h
    have := pixelMemory_ok hm c
    rw [this] at h
    exact (Except.ok.inj h).symm
  refine ⟨mem', hm, ?_, ?_, ?_⟩
  · intro c old hold q
    obtain ⟨m', h1, h2, -, -⟩ := hall c
    rw [← h2 old hold q, hp c m' h1]
    rfl
  · intro hw
    rw [Memory.wf_iff] at hw ⊢
    intro c
    obtain ⟨m', h1, -, h3, -⟩ := hall c
    rw [← hp c m' h1]
    exact h3 (hw c)
  · intro k hw hle
    rw [Memory.within_iff] at hw ⊢
    intro c
    obtain ⟨m', h1, -, -, h4⟩ := hall c
    rw [← hp c m' h1]
    exact h4 k (hw c) hle

/-- A pixel step leaves a value in every cell that held one. -/
theorem pixelMemory_keeps_values {n lw lh x y : Nat} {mem mem' : Memory} (hx : x < lw) (hy : y < lh)
    (hv : frameWritten mem (lw * lh)) (h : pixelMemory n lw lh x y mem = .ok mem') (c : Channel) (q : Nat) :
    (mem'.read c q).isSome = (mem.read c q).isSome := by
  obtain ⟨mem'', h1, h2, -, -⟩ := pixelMemory_spec (n := n) hx hy hv
  rw [h] at h1
  cases h1
  obtain ⟨old, hold⟩ := Option.isSome_iff_exists.1 (hv c _ (cellIndex_lt hx hy))
  rw [h2 c old hold q]
  split
  · rename_i hq; subst hq; simp [hold]
  · split <;> simp [addShare]

/-! ### The frame of a pixel step, without any premise on the values (R172, R181) -/

/-- Diffusion that succeeds leaves every cell alone that is no target. -/
theorem diffuseAll_frame {lw : Nat} {err : Int} {ts : List Share} {m m' : Plane} (h : diffuseAll lw err ts m = .ok m')
    (q : Nat) (hq : ∀ t ∈ ts, t.cell lw ≠ q) : Plane.read m' q = Plane.read m q := by
  induction ts generalizing m with
  | nil => simp [diffuseAll] at h; rw [h]
  | cons t ts ih =>
    unfold diffuseAll at h
    split at h
    · simp at h
    · rename_i m1 h1
      rw [ih h (fun u hu => hq u (List.mem_cons_of_mem _ hu))]
      unfold diffuse at h1
      split at h1
      · simp at h1
      · cases h1
        exact Plane.read_write_other _ _ (Ne.symm (hq t List.mem_cons_self))

/-- A pixel step that succeeds leaves every cell outside the frame alone. -/
theorem pixelPlane_frame {n lw lh x y : Nat} {m m' : Plane} (hx : x < lw) (hy : y < lh)
    (h : pixelPlane n lw lh x y m = .ok m') (q : Nat) (hq : lw * lh ≤ q) : Plane.read m' q = Plane.read m q := by
  unfold pixelPlane at h
  split at h
  · simp at h
  · have hin := shares_inFrame hx hy
    rw [diffuseAll_frame h q]
    · have := cellIndex_lt hx hy
      exact Plane.read_write_other _ _ (by omega)
    · intro t ht
      have := cellIndex_lt (hin t ht).1 (hin t ht).2
      unfold Share.cell; omega

end Sys2Proof.Machine
end

