-- ==== Sys2Proof/Laws/PerInstr.lean ====
section
/-! SUPPORT. Statements about every command as syntax, one lemma per constructor. -/

namespace Sys2Proof.Laws

/-- A well-formed command's word fits its row of the opcode map: the bits of `mask` are those of `match` (R93). -/
def EncodingFits.Statement (i : Instr) : Prop := i.wf = true → encode i &&& i.mask = i.pattern

theorem EncodingFits.nop : EncodingFits.Statement .nop := fun _ => by decide

theorem EncodingFits.genPal : EncodingFits.Statement .genPal := fun _ => by decide

theorem EncodingFits.dither : EncodingFits.Statement .dither := fun _ => by decide

theorem EncodingFits.quant (v : Nat) : EncodingFits.Statement (.quant v) := fun h => by
  have h1 : ∀ v, v < 256 → encode (.quant v) &&& 0xFFFF00FF#32 = 0x00000003#32 := by decide +kernel
  have h2 : v ≤ 255 := of_decide_eq_true h
  exact h1 v (by omega)

theorem EncodingFits.satadd (v : Nat) (d : Int) : EncodingFits.Statement (.satadd v d) := fun h => by
  have h1 : ∀ v, v < 256 → (BitVec.ofNat 32 v <<< 8) &&& 0xFF0000FF#32 = 0#32 := by decide +kernel
  have h2 : ∀ p : Byte, (p.setWidth 32 <<< 16) &&& 0xFF0000FF#32 = 0#32 := by decide +kernel
  have h3 : BitVec.ofInt 32 d &&& 0xFF#32 = (BitVec.ofInt 8 d).setWidth 32 := by
    apply BitVec.eq_of_toNat_eq
    rw [delta_pattern_toNat, BitVec.toNat_setWidth, BitVec.toNat_ofInt]
    omega
  have hv : v ≤ 255 := of_decide_eq_true (Bool.and_eq_true_iff.1 h).1
  show ((BitVec.ofInt 32 d &&& 0xFF#32) <<< 16 ||| BitVec.ofNat 32 v <<< 8 ||| 0x04#32) &&& 0xFF0000FF#32 = 0x04#32
  have e : ∀ a b c m : Word, (a ||| b ||| c) &&& m = (a &&& m) ||| (b &&& m) ||| (c &&& m) := by
    intro a b c m
    ext i hi
    simp [Bool.and_or_distrib_right]
  rw [e, h3, h2, h1 v (by omega)]
  decide

end Sys2Proof.Laws
end

