-- ==== Sys2Proof/Laws/Step.lean ====
section
/-! SUPPORT. What one step can be, said once, and what a command's engine step can be. -/

namespace Sys2Proof.Machine

/-- One step: the idle block stays, or the engine moves, or the host does (R12). -/
theorem step_cases (s : State) :
    (s.op = none ∧ s.pending = [] ∧ step s = .next s) ∨
      (∃ w sched, s.op = some w ∧ step s = engineStep w { s with schedule := sched }) ∨
        ∃ h rest sched, s.pending = h :: rest ∧ step s = hostStep h { s with pending := rest, schedule := sched } := by
  unfold step
  split
  · exact .inl ⟨‹_›, ‹_›, rfl⟩
  · rename_i h rest _ hp
    exact .inr (.inr ⟨h, rest, s.schedule, hp, rfl⟩)
  · rename_i w hw _
    exact .inr (.inl ⟨w, s.schedule, hw, rfl⟩)
  · rename_i w h rest hw hp
    split
    · exact .inr (.inl ⟨w, s.schedule, hw, rfl⟩)
    · exact .inr (.inl ⟨w, _, hw, rfl⟩)
    · exact .inr (.inr ⟨h, rest, _, hp, rfl⟩)

/-- An engine step of an accepted word is its command's (R106). -/
theorem engineStep_of_decode {w : Word} {i : Instr} (h : decode w = .ok i) (s : State) :
    engineStep w s = exec i s := by
  simp [engineStep, h]

/-- With nothing pending the engine moves whenever a command runs (R104). -/
theorem step_engine_alone {s : State} {w : Word} (hw : s.op = some w) (hp : s.pending = []) :
    step s = engineStep w s := by
  unfold step
  split <;> simp_all

/-- The pixel step of a DITHER whose frame holds values (R172). -/
theorem execDither_pixel {s : State} (hx : s.px.toNat < s.lw.toNat) (hy : s.py.toNat < s.lh.toNat)
    (hv : frameWritten s.mem (latchedFrame s)) :
    ∃ mem', pixelMemory s.palN.toNat s.lw.toNat s.lh.toNat s.px.toNat s.py.toNat s.mem = .ok mem' ∧
      execDither s = .next (advanceCursor { s with mem := mem' }) := by
  obtain ⟨mem', hm, -⟩ := pixelMemory_spec (n := s.palN.toNat) hx hy hv
  refine ⟨mem', hm, ?_⟩
  unfold execDither State.pixelLeft pixelStep
  simp [hx, hy, hm]

/-- The completion of a DITHER with no pixel left (R183). -/
theorem execDither_complete {s : State} (h : ¬(s.px.toNat < s.lw.toNat ∧ s.py.toNat < s.lh.toNat)) :
    execDither s = .next (ditherComplete s) := by
  unfold execDither State.pixelLeft
  rw [if_neg]
  simpa using h

/-- The next cursor as numbers: no coordinate wraps (R172). -/
theorem advanceCursor_toNat {s : State} (hy : s.py.toNat < s.lh.toNat) :
    (advanceCursor s).px.toNat = (if s.px.toNat + 1 < s.lw.toNat then s.px.toNat + 1 else 0) ∧
      (advanceCursor s).py.toNat = (if s.px.toNat + 1 < s.lw.toNat then s.py.toNat else s.py.toNat + 1) := by
  have h1 := s.lw.isLt
  have h2 := s.lh.isLt
  simp only [advanceCursor_px, advanceCursor_py]
  split
  · exact ⟨by simp [BitVec.toNat_add]; omega, rfl⟩
  · exact ⟨rfl, by simp [BitVec.toNat_add]; omega⟩

/-- An engine step of a DITHER that answers a next state is a pixel step or the completion (R171). -/
theorem execDither_cases {s t : State} (h : execDither s = .next t) :
    (s.px.toNat < s.lw.toNat ∧ s.py.toNat < s.lh.toNat ∧
      ∃ mem', pixelMemory s.palN.toNat s.lw.toNat s.lh.toNat s.px.toNat s.py.toNat s.mem = .ok mem' ∧
        t = advanceCursor { s with mem := mem' }) ∨
      (¬(s.px.toNat < s.lw.toNat ∧ s.py.toNat < s.lh.toNat) ∧ t = ditherComplete s) := by
  unfold execDither State.pixelLeft at h
  split at h
  · rename_i h1
    simp at h1
    unfold pixelStep at h
    split at h
    · simp at h
    · rename_i m hm
      cases h
      exact .inl ⟨h1.1, h1.2, m, hm, rfl⟩
  · rename_i h1
    simp at h1
    cases h
    exact .inr ⟨fun h => by omega, rfl⟩

/-! ### Runs -/

/-- One step and then k steps. -/
theorem run_next_of_step (M : Host.Core) (k : Nat) {s t : M.State} (h : M.step s = .next t) :
    M.run (k + 1) s = M.run k t := by
  simp [Host.Core.run, h]

/-- k steps and then one step. -/
theorem run_last_of_step (M : Host.Core) (k : Nat) {s t u : M.State} (h : M.run k s = .next t)
    (h1 : M.step t = .next u) : M.run (k + 1) s = .next u := by
  induction k generalizing s with
  | zero =>
    cases h
    rw [run_next_of_step M 0 h1]
    rfl
  | succ k ih =>
    cases hs : M.step s with
    | next s' =>
      rw [run_next_of_step M k hs] at h
      rw [run_next_of_step M (k + 1) hs]
      exact ih h
    | fault r => simp [Host.Core.run, hs] at h
    | refused r => simp [Host.Core.run, hs] at h

/-- A run of the machine, first step first. -/
theorem core_run_next {k : Nat} {s t : State} (h : step s = .next t) :
    Host.Core.run Sys2Proof.core (k + 1) s = Host.Core.run Sys2Proof.core k t :=
  run_next_of_step Sys2Proof.core k h

/-- A run of the machine, last step last. -/
theorem core_run_last {k : Nat} {s t u : State} (h : Host.Core.run Sys2Proof.core k s = .next t)
    (h1 : step t = .next u) : Host.Core.run Sys2Proof.core (k + 1) s = .next u :=
  run_last_of_step Sys2Proof.core k h h1

end Sys2Proof.Machine
end

