-- ==== Sys2Proof/Tests/Slice0.lean ====
section
/-! SUPPORT. Tests, with expected values from spec/95_test_vectors.md and spec/30_encoding.md, and a witness for the
hypotheses of every obligation that has some. -/

namespace Sys2Proof.Tests

open Sys2Proof Sys2Proof.Machine Sys2Proof.Spec

/-! ### Small states -/

/-- A plane that holds these samples from cell 0 on. -/
def planeFrom : Nat → List Byte → Plane
  | _, [] => []
  | p, v :: vs => (p, v) :: planeFrom (p + 1) vs

/-- A reset block of 16 cells a plane with this palette size, frame size and the same samples in all three planes. -/
def loaded (n : Word) (w h : Half) (vs : List Byte) : State :=
  { State.reset with
    palN := n, width := w, height := h
    mem := { r := planeFrom 0 vs, g := planeFrom 0 vs, b := planeFrom 0 vs } }

/-- The same block with a DITHER just accepted. -/
def dithering (n : Word) (w h : Half) (vs : List Byte) : State := accept 0x00000002#32 (loaded n w h vs)

/-- Vector D1 of the spec, just accepted: K = 2, 2×1, [128, 183]. -/
def d1 : State := dithering 2#32 2#16 1#16 [128#8, 183#8]

/-- Vector D2 of the spec, just accepted: K = 2, 3×2. -/
def d2 : State := dithering 2#32 3#16 2#16 [128#8, 250#8, 250#8, 128#8, 0#8, 128#8]

/-- A 2×2 frame of palette values. -/
def fixedFrame : State := dithering 2#32 2#16 2#16 [0#8, 255#8, 255#8, 0#8]

/-- A NOP has been accepted. -/
def nopRunning : State := accept 0x00000000#32 State.reset

/-- A host program of one access is about to run. -/
def issuing (x : Access) (s : State) : State := { s with pending := [.access x] }

/-- What a test looks at in the next state. -/
def look {α : Type} (f : State → α) (o : Host.Outcome State Fault Refusal) : Option α := (next? o).map f

/-! ### Encodings written out (30_encoding.md R93, R96; 95 sections 2.2 to 2.5) -/

theorem test_decode_nop : decode 0b00000000000000000000000000000000#32 = .ok .nop := by decide
theorem test_decode_genPal : decode 0b00000000000000000000000000000001#32 = .ok .genPal := by decide
theorem test_decode_dither : decode 0b00000000000000000000000000000010#32 = .ok .dither := by decide
/-- `QUANT 191` = 0x0000_BF03 (95 section 2.2). -/
theorem test_decode_quant : decode 0b00000000000000001011111100000011#32 = .ok (.quant 191) := by decide
/-- `SATADD 200, -128` = 0x0080_C804 (95 section 2.3). -/
theorem test_decode_satadd : decode 0b00000000100000001100100000000100#32 = .ok (.satadd 200 (-128)) := by decide
/-- `SATADD 100, -111` = 0x0091_6404 (95 section 2.3). -/
theorem test_encode_satadd : encode (.satadd 100 (-111)) = 0x00916404#32 := by decide
/-- The opcode is checked before the reserved bits (95 section 2.5). -/
theorem test_decode_order : decode 0x01000005#32 = .illegalOpcode ∧ decode 0x00010003#32 = .reservedBits ∧
    decode 0x00010004#32 = .ok (.satadd 0 1) ∧ decode 0x80000001#32 = .reservedBits := by decide
/-- Bytes on the bus are little-endian (R62). -/
theorem test_decode_bytes : decodeBytes [0x03#8, 0xBF#8, 0x00#8, 0x00#8] = some (.ok (.quant 191)) := by decide
theorem test_table_word : decodeTableWord 32 0x0080C804 = some (.satadd 200 (-128)) := by decide
/-- The hexadecimal delta operand gives the 8-bit pattern (R96). -/
theorem test_assemble_hex :
    assembleLine ['s', 'a', 't', 'a', 'd', 'd', ' ', '2', '0', '0', ',', ' ', '0', 'x', '8', '0'] =
      some 0x0080C804#32 := by decide +kernel

/-! ### Well-formedness: an ill-formed term for each check -/

theorem smoke_sample_of_quant : (Instr.quant 256).wf = false := by decide
theorem smoke_sample_of_satadd : (Instr.satadd 256 0).wf = false := by decide
theorem smoke_delta_too_large : (Instr.satadd 0 128).wf = false := by decide
theorem smoke_delta_too_small : (Instr.satadd 0 (-129)).wf = false := by decide
/-- A command out of range has no encoding, so a host program that names it does not expand (R96, R98). -/
theorem smoke_no_write_of_ill_formed : (HostLine.cmd (.quant 256)).expand = none := by decide

/-! ### One step of each command -/

/-- NOP: STATUS = 0x0000_0002 (95 section 2.5). -/
theorem test_nop : look statusWord (exec .nop nopRunning) = some 0x00000002#32 := by decide
/-- GEN_PAL with K = 5: 0, 63, 127, 191, 255, then 0 (95 section 2.1). -/
theorem test_genPal : look (fun t => [readReg .palCount t, readReg (.pal 1) t, readReg (.pal 3) t, readReg (.pal 5) t])
    (exec .genPal { State.reset with palK := 5#32 }) = some [5#32, 63#32, 191#32, 0#32] := by decide
/-- GEN_PAL with K = 0: N = 2, and STATUS = 0x0000_000A (95 section 2.1). -/
theorem test_genPal_clamp : look (fun t => [readReg .palCount t, statusWord t])
    (exec .genPal { State.reset with palK := 0#32 }) = some [2#32, 0x0000000A#32] := by decide
/-- A tie goes to the smaller value: K = 3, v = 191 gives 127 (95 section 2.2). -/
theorem test_quant_tie : look (fun t => t.result) (exec (.quant 191) { State.reset with palN := 3#32 }) = some 127#8 := by
  decide
/-- K = 16, v = 143 gives 136 (95 section 2.2). -/
theorem test_quant_sixteen : look (fun t => t.result) (exec (.quant 143) { State.reset with palN := 16#32 }) = some 136#8 := by
  decide
/-- `SATADD 200, -128` gives 72 (95 section 2.3). -/
theorem test_satadd_low : look (fun t => t.result) (exec (.satadd 200 (-128)) State.reset) = some 72#8 := by decide
/-- `SATADD 129, 127` gives 255 (95 section 2.3). -/
theorem test_satadd_high : look (fun t => t.result) (exec (.satadd 129 127) State.reset) = some 255#8 := by decide
/-- The first line of D1's trace: 128 becomes 255 and 183 takes −55, not −56. -/
theorem test_dither_truncates : look (fun t => t.mem.g) (exec .dither d1) = some [(0, 255#8), (1, 128#8)] := by decide
/-- The first line of D2's trace: cells 1, 3 and 4 take −55, −39 and −7 with saturation. -/
theorem test_dither_shares : look (fun t => t.mem.b) (exec .dither d2) =
    some [(0, 255#8), (1, 195#8), (2, 250#8), (3, 89#8), (4, 0#8), (5, 128#8)] := by decide

/-! ### One host access each (95 sections 2.5 to 2.7) -/

/-- Byte order: `WR32 R+0, 0x4433_2211` puts 0x11 in cell 0 and 0x44 in cell 3. -/
theorem test_write_plane : look (fun t => (t.mem.read .r 0, t.mem.read .r 3))
    (hostAccess (.write 0x100000#22 (.d4 0x44332211#32)) State.reset) = some (some 0x11#8, some 0x44#8) := by decide
/-- `RD16` of the cells 0x33, 0x44 is 0x4433. -/
theorem test_read_plane : look (fun t => t.log.map (fun e => e.response))
    (hostAccess (.read 0x200000#22 .w2) (loaded 0#32 0#16 0#16 [0x33#8, 0x44#8])) = some [.data (.d2 0x4433#16)] := by
  decide
/-- `RD8 STATUS` is a bus error: one host fault, read, offset 0x00C, width 1. -/
theorem test_bus_error : look State.hostFaults (hostAccess (.read 0x00C#22 .w1) State.reset) =
    some [.read 0x00C#22 .w1] := by decide
/-- While BUSY a write to CMD is CMD_WHILE_BUSY with the word, whatever the word. -/
theorem test_cmd_while_busy : look (fun t => (readReg .errCode t, t.errInfo)) (hostAccess (writeCmd 0x05#32) d1) =
    some (3#32, 0x05#32) := by decide
/-- While BUSY `WR8 R+5, 0` is WRITE_WHILE_BUSY with 0x0010_0005, and cell 5 is unchanged. -/
theorem test_write_while_busy : look (fun t => (readReg .errCode t, t.errInfo, t.mem.read .r 5))
    (hostAccess (.write 0x100005#22 (.d1 0#8)) d2) = some (4#32, 0x00100005#32, some 128#8) := by decide
/-- A DITHER of 17 × 1 with MAX_PIXELS = 16 is DIM_RANGE. -/
theorem test_dim_range : look (fun t => (readReg .errCode t, t.errInfo, statusWord t))
    (hostAccess (writeCmd 0x02#32) (loaded 0#32 17#16 1#16 [])) = some (5#32, 0x02#32, 0x04#32) := by decide
/-- `WR32 CTRL, 0x3` is a soft reset: IE is not set, and the planes are kept. -/
theorem test_soft_reset : look (fun t => (t.ie, t.palK, statusWord t, t.mem.read .g 1))
    (hostAccess (.write 0x008#22 (.d4 3#32)) (loaded 4#32 2#16 1#16 [1#8, 0x5A#8])) =
      some (false, 2#32, 0#32, some 0x5A#8) := by decide
/-- A soft reset during a DITHER unsets the frame's cells and keeps the others. -/
theorem test_soft_reset_dithering : look (fun t => (t.mem.read .b 1, t.mem.read .b 2, t.done))
    (hostAccess (.write 0x008#22 (.d4 2#32)) (dithering 2#32 2#16 1#16 [1#8, 2#8, 0x5A#8])) =
      some (none, some 0x5A#8, false) := by decide
/-- The wait for `IRQ` goes on while the line is low, and is passed once DONE is 1 and IE = 1 (R214, R230). -/
theorem test_wait_irq :
    look (fun t => t.pending) (hostStep .waitIrq { d1 with ie := true }) = some [.waitIrq] ∧
    look (fun t => (t.pending, t.done)) (hostStep .waitIrq { State.reset with ie := true, done := true }) = some ([], true) ∧
    look (fun t => t.pending) (hostStep .waitIrq { State.reset with done := true }) = some [.waitIrq] := by decide
/-- A host program line: `LOADW R, 0, w` is one 4-byte write at 0x10_0000 (R98). -/
theorem test_program_line : (HostLine.loadW .r 0 0x80FAFA80#32).expand =
    some [.access (.write 0x100000#22 (.d4 0x80FAFA80#32))] := by decide
/-- An RGBA pixel fills cell 0 of each plane; alpha goes into no plane (R231). -/
theorem test_load_image : expandProgram (loadImage [⟨1#8, 2#8, 3#8, 255#8⟩]) =
    some [.access (.write 0x100000#22 (.d1 1#8)), .access (.write 0x200000#22 (.d1 2#8)),
      .access (.write 0x300000#22 (.d1 3#8))] := by decide
/-- A line of program P1 with its comment: `WR16 R+0, 0x6464 ; …` is `MemWrite(0x10_0000, 2, 0x6464)` (R97). -/
theorem test_text_write : assembleProgram [['W', 'R', '1', '6', ' ', 'R', '+', '0', ',', ' ', '0', 'x', '6', '4', '6', '4', ' ', ';', 'R']] =
    some [.access (.write 0x100000#22 (.d2 0x6464#16))] := by decide +kernel
/-- `RUN NOP` is `WR32 CMD, 0` and then the poll loop (R98). -/
theorem test_text_run : assembleProgram [['R', 'U', 'N', ' ', 'n', 'o', 'p']] =
    some [.access (writeCmd 0x00000000#32), .waitIdle] := by decide +kernel
/-- A word placed by `withFetchWord` runs in the next step. -/
theorem test_fetch_word : look (fun t => (t.result, t.done)) (step (State.reset.withFetchWord 32 0x0080C804)) =
    some (72#8, true) := by decide

/-! ### Witnesses: states and operands that meet the hypotheses of the obligations -/

theorem witness_DecodeInvertsEncode : (Instr.satadd 255 (-128)).wf = true ∧ (Instr.satadd 0 127).wf = true ∧
    (Instr.quant 255).wf = true ∧ Instr.nop.wf = true ∧ Instr.genPal.wf = true ∧ Instr.dither.wf = true := by decide
theorem witness_EncodeInvertsDecode : decode 0x0080FF04#32 = .ok (.satadd 255 (-128)) ∧
    decode 0x00FFFF04#32 = .ok (.satadd 255 (-1)) ∧ decode 0x0000FF03#32 = .ok (.quant 255) := by decide
theorem witness_OpcodeMapDecodes : 0x00FFFF04#32 &&& 0xFF0000FF#32 = 0x00000004#32 ∧
    0x0000FF03#32 &&& 0xFFFF00FF#32 = 0x00000003#32 ∧ 0x02#32 &&& 0xFFFFFFFF#32 = 0x02#32 := by decide
theorem witness_RejectedWords : decode 0x00000005#32 = .illegalOpcode ∧ decode 0xFFFFFFFF#32 = .illegalOpcode ∧
    decode 0x00000100#32 = .reservedBits ∧ decode 0x00000102#32 = .reservedBits ∧ decode 0x00010003#32 = .reservedBits ∧
    decode 0x01000004#32 = .reservedBits ∧ decode 0x00FFFF04#32 = .ok (.satadd 255 (-1)) := by decide
theorem witness_AssembledLineGivesItsWord : (Instr.satadd 200 (-128)).wf = true ∧
    assembleLine (printInstr (.satadd 200 (-128))) = some 0x0080C804#32 := by decide +kernel
theorem witness_DisassemblyShowsRejection : decode 0x0000BF03#32 = .ok (.quant 191) ∧
    decode 0xABCDEF05#32 = .illegalOpcode ∧ decode 0x00010003#32 = .reservedBits := by decide
theorem witness_StepRunsDecodedCommand :
    (d1.op = some 0x02#32 ∧ decode 0x02#32 = .ok .dither ∧ d1.pending = []) ∧
    ((issuing statusRead d1).pending ≠ [] ∧ (issuing statusRead d1).schedule = []) ∧
    ({ issuing statusRead d1 with schedule := [.engine, .host] }).schedule = .engine :: [.host] := by decide
theorem witness_HostMovesInProgramOrder :
    ((issuing statusRead State.reset).pending = [.access statusRead] ∧ (issuing statusRead State.reset).op = none) ∧
    ({ issuing statusRead d1 with schedule := [.host] }).op = some 0x02#32 ∧
    ({ issuing statusRead d1 with schedule := [.host] }).schedule = .host :: [] := by decide
theorem witness_IdleBlockStays : State.reset.op = none ∧ State.reset.pending = [] := by decide
theorem witness_PlacedCommandRunsNext : (Instr.quant 191).wf = true ∧ (Instr.satadd 0 (-128)).wf = true := by decide
theorem witness_HostLinesExpand :
    (Reg.pal 255).offset = some 0x7FC ∧ (Reg.qlut 0).offset = some 0x800 ∧ (Instr.quant 191).wf = true ∧
    (Instr.quant 256).wf = false ∧ (Symbol.cell .b 0xFFFFF).offset = some 0x3FFFFF#22 ∧ 0xFFFFF < 0x100000 ∧ 0xFFFFF + [7#8].length ≤ 0x100000 := by decide
theorem witness_ImageLoadWritesEveryPixel : [Pixel.gray 9#8].length ≤ 0x100000 ∧
    [Pixel.gray 9#8][0]? = some (Pixel.gray 9#8) ∧
    outputPixel { r := [(0, 1#8)], g := [(0, 2#8)], b := [(0, 3#8)] } 1 0 0 = some (1#8, 2#8, 3#8) := by decide
theorem witness_GenPalBuildsPalette : 0 < 256 ∧ 255 < 256 := by decide
theorem witness_QuantWritesNearestLevel : (0 ≤ 255 ∧ 255 ≤ 255) ∧ State.reset.palN = 0#32 ∧
    256 ≤ ({ State.reset with palN := 256#32 }).palN.toNat := by decide
theorem witness_SataddWritesClampedSum : (0 : Nat) ≤ 255 ∧ (-128 : Int) ≤ -128 ∧ (127 : Int) ≤ 127 := by decide

/-- Every cell of a small frame holds a value. -/
theorem frame_of_d1 (c : Channel) (p : Nat) (h : p < d1.lw.toNat * d1.lh.toNat) : (d1.mem.read c p).isSome = true := by
  revert p
  cases c <;> decide
theorem frame_of_fixedFrame (c : Channel) (p : Nat) (h : p < fixedFrame.lw.toNat * fixedFrame.lh.toNat) :
    (fixedFrame.mem.read c p).isSome = true := by
  revert p
  cases c <;> decide

/-- At (0, 0) of a 2 × 2 frame the weights 7, 5 and 1 have a target. -/
theorem witness_DitherPixelStepDiffuses :
    fixedFrame.px.toNat < fixedFrame.lw.toNat ∧ fixedFrame.py.toNat < fixedFrame.lh.toNat ∧
    (∀ c p, p < fixedFrame.lw.toNat * fixedFrame.lh.toNat → (fixedFrame.mem.read c p).isSome = true) ∧
    fixedFrame.mem.read .g (fixedFrame.py.toNat * fixedFrame.lw.toNat + fixedFrame.px.toNat) = some 0#8 ∧
    (1 = 0 + 1 ∧ fixedFrame.px.toNat + 1 < fixedFrame.lw.toNat) ∧
    (2 = 0 + fixedFrame.lw.toNat ∧ fixedFrame.py.toNat + 1 < fixedFrame.lh.toNat) ∧
    3 = 0 + fixedFrame.lw.toNat + 1 :=
  ⟨by decide, by decide, frame_of_fixedFrame, by decide, by decide, by decide, by decide⟩
/-- At (1, 0) of a 2 × 2 frame the weight 3 has a target, and the weights 7 and 1 have none. -/
theorem witness_DitherPixelStepDiffuses_left :
    let s := { fixedFrame with px := 1#16 }
    s.px.toNat < s.lw.toNat ∧ s.py.toNat < s.lh.toNat ∧
    (∀ c p, p < s.lw.toNat * s.lh.toNat → (s.mem.read c p).isSome = true) ∧
    s.mem.read .r (s.py.toNat * s.lw.toNat + s.px.toNat) = some 255#8 ∧
    2 + 1 = 1 + s.lw.toNat ∧ s.py.toNat + 1 < s.lh.toNat ∧ 0 < s.px.toNat ∧ ¬(s.px.toNat + 1 < s.lw.toNat) :=
  ⟨by decide, by decide, frame_of_fixedFrame, by decide, by decide, by decide, by decide, by decide⟩
theorem witness_DitherCompletesAfterLastPixel :
    ¬(({ d1 with py := 1#16 }).px.toNat < d1.lw.toNat ∧ ({ d1 with py := 1#16 }).py.toNat < d1.lh.toNat) := by decide
theorem witness_CommandsLeaveTheRestAlone :
    (exec .dither d1 = .next (advanceCursor { d1 with mem :=
      { r := planeFrom 0 [255#8, 128#8], g := planeFrom 0 [255#8, 128#8], b := planeFrom 0 [255#8, 128#8] } })) ∧
    exec .nop nopRunning = .next (complete nopRunning) ∧ d1.lw.toNat * d1.lh.toNat ≤ 2 := by
  exact ⟨rfl, rfl, by decide⟩
theorem witness_EmptyFrameDitherTouchesNothing :
    (loaded 2#32 0#16 5#16 []).op = none ∧ (loaded 2#32 0#16 5#16 []).width = 0#16 ∧
    (loaded 2#32 7#16 0#16 []).op = none ∧ (loaded 2#32 7#16 0#16 []).height = 0#16 := by decide
/-- One witness for each rejection, at the edge of its range. -/
theorem witness_SubmissionRejectionOrder : d1.op ≠ none ∧
    (State.reset.op = none ∧ 5 ≤ (0x00000005#32).toNat % 256 ∧ 5 ≤ (0x000000FF#32).toNat % 256) ∧
    ((0x00000100#32).toNat % 256 ≤ 2 ∧ 2 ^ 8 ≤ (0x00000100#32).toNat) ∧
    ((0x00010003#32).toNat % 256 = 3 ∧ 2 ^ 16 ≤ (0x00010003#32).toNat) ∧
    ((0x01000004#32).toNat % 256 = 4 ∧ 2 ^ 24 ≤ (0x01000004#32).toNat) ∧
    ((loaded 2#32 17#16 1#16 []).op = none ∧
      (loaded 2#32 17#16 1#16 []).cfg.maxPixels <
        (loaded 2#32 17#16 1#16 []).width.toNat * (loaded 2#32 17#16 1#16 []).height.toNat) := by decide

/-- A 4 × 4 frame, the largest that 16 cells hold. -/
def fullFrame : State := loaded 2#32 4#16 4#16 (List.replicate 16 7#8)

theorem witness_AcceptanceStartsTheCommand :
    (Instr.nop.wf = true ∧ State.reset.op = none ∧ Instr.nop ≠ .dither) ∧
    (Instr.dither.wf = true ∧ fullFrame.op = none ∧
      fullFrame.width.toNat * fullFrame.height.toNat ≤ fullFrame.cfg.maxPixels) ∧
    ∀ c p, p < fullFrame.width.toNat * fullFrame.height.toNat → (fullFrame.mem.read c p).isSome = true := by
  refine ⟨by decide, by decide, ?_⟩
  intro c
  cases c <;> decide
/-- The last cell of B is the only one without a value. -/
theorem witness_UnwrittenFrameFaults :
    let s := { loaded 2#32 2#16 1#16 [1#8, 2#8] with
      mem := { r := planeFrom 0 [1#8, 2#8], g := planeFrom 0 [1#8, 2#8], b := planeFrom 0 [1#8] } }
    s.op = none ∧ s.width.toNat * s.height.toNat ≤ s.cfg.maxPixels ∧ 1 < s.width.toNat * s.height.toNat ∧
    s.mem.read .b 1 = none ∧ (∀ q, q < 1 → (s.mem.read .b q).isSome = true) ∧
    (∀ q, q < s.width.toNat * s.height.toNat → (Channel.b = .g ∨ Channel.b = .b) → (s.mem.read .r q).isSome = true) ∧
    (∀ q, q < s.width.toNat * s.height.toNat → Channel.b = .b → (s.mem.read .g q).isSome = true) := by decide
/-- Nothing is written: the first cell of R is reported. -/
theorem witness_UnwrittenFrameFaults_first :
    (loaded 2#32 1#16 1#16 []).op = none ∧ 0 < (loaded 2#32 1#16 1#16 []).width.toNat * (loaded 2#32 1#16 1#16 []).height.toNat ∧
    (loaded 2#32 1#16 1#16 []).mem.read .r 0 = none ∧ hostAccess (writeCmd 2#32) (loaded 2#32 1#16 1#16 []) =
      .fault (.unwritten .r 0) := by
  exact ⟨by decide, by decide, by decide, rfl⟩
/-- A completion with IE set raises `IRQ`; a bus error is one more host fault. -/
theorem witness_IrqFollowsItsBits :
    (look (fun t => (t.irq, t.busy, t.done)) (step { nopRunning with ie := true }) = some (true, false, true) ∧
      nopRunning.busy = true) ∧
    look (fun t => t.hostFaults.length) (step (issuing (.read 0x00C#22 .w1) State.reset)) = some 1 := by decide
theorem witness_PaletteEndpointsAndIncrease : 2 ≤ 2 ∧ 2 ≤ 256 ∧ 256 ≤ 256 := by decide
theorem witness_LargePaletteHoldsEveryLevel : 256 ≤ 256 ∧ 256 ≤ 257 ∧ 257 ≤ 257 := by decide
/-- The palette 0, 127, 255 and the tie at 191: a = 127, b = 255; and no level above 255. -/
theorem witness_QuantizerIsSmallestClosestLevel :
    2 ≤ 3 ∧ 191 ≤ 255 ∧ 127 ∈ palSeq 3 ∧ (∀ p ∈ palSeq 3, p ≤ 191 → p ≤ 127) ∧
    255 ∈ palSeq 3 ∧ 191 < 255 ∧ (∀ p ∈ palSeq 3, 191 < p → 255 ≤ p) ∧
    (255 ≤ 255 ∧ ∀ p ∈ palSeq 3, p ≤ 255) := by decide
/-- The gaps of the palette 0, 127, 255 are 127 and 128. -/
theorem witness_QuantizerProperties :
    (2 ≤ 3 ∧ 127 ∈ palSeq 3) ∧ (∀ i, i < 2 → palEntry 3 (i + 1) - palEntry 3 i ≤ 128) ∧
    (1 + 1 < 3 ∧ palEntry 3 (1 + 1) - palEntry 3 1 = 128) := by decide
theorem witness_DecisionThresholds : 0 < 256 ∧ 255 < 256 ∧ (0 ≤ 2 ∧ 2 ≤ 2) ∧ 256 ≤ 256 := by decide
theorem witness_SaturatingAddLaws : (0 : Nat) ≤ 255 ∧ (-128 : Int) ≤ -128 ∧ (-128 : Int) ≤ 127 ∧
    (0 : Int) ≤ (128 : Nat) + (127 : Int) ∧ ((128 : Nat) : Int) + 127 ≤ 255 := by decide
/-- The largest error of either sign. -/
theorem witness_DeltaTruncatesWithinBounds :
    (255 : Int) = (255 : Nat) - (quantize 0 255 : Int) ∧ (-127 : Int) = (128 : Nat) - (quantize 2 128 : Int) := by decide
/-- The first and the last address of a block at 0x8000_0000. -/
theorem witness_AddressesAreOffsetsFromBase :
    let c : Config.Params := { maxPixels := 16, fsdBase := 0x80000000 }
    0x80000000 = c.fsdBase + (0#22).toNat ∧ offsetOfAddress c 0x803FFFFF = some 0x3FFFFF#22 ∧
    offsetOfAddress c 0x80400000 = none := by decide
/-- Each way to a bus error, and the accesses just inside (95 section 2.6). -/
theorem witness_BusErrorsChangeNothing :
    target 16 0x00E#22 .w4 = none ∧ target 16 0x00C#22 .w2 = none ∧ target 16 0x1000#22 .w4 = none ∧
    target 16 0x0FFFFC#22 .w4 = none ∧ target 16 0x100001#22 .w2 = none ∧ target 16 0x300010#22 .w1 = none ∧
    target 16 0xFFC#22 .w4 = some (.register 0xFFC) ∧ target 16 0x30000F#22 .w1 = some (.cells .b 15) ∧
    target 16 0x10000C#22 .w4 = some (.cells .r 12) := by decide
theorem witness_RegistersReadExactly : State.reset.cfg.wf ∧ 255 < 256 := by decide
theorem witness_ResultAndCursorReads : State.reset.op = none ∧ d1.op ≠ none := by decide
/-- The last word of a plane of 16 cells, idle and busy, with and without values. -/
theorem witness_PlaneReadIsLittleEndian :
    d1.cfg.wf ∧ 12 % Width.w4.bytes = 0 ∧ 12 + Width.w4.bytes ≤ d1.cfg.maxPixels ∧ d1.op ≠ none ∧
    fullFrame.op = none ∧ 3 < Width.w4.bytes ∧ fullFrame.mem.read .b (12 + 3) = some 7#8 ∧
    State.reset.op = none ∧ State.reset.mem.read .b (12 + 3) = none := by decide
theorem witness_PlaneWriteStoresItsBytes :
    d1.cfg.wf ∧ 12 % (BusData.d4 1#32).width.bytes = 0 ∧ 12 + (BusData.d4 1#32).width.bytes ≤ d1.cfg.maxPixels ∧
    d1.op ≠ none ∧ State.reset.cfg.wf ∧ State.reset.op = none := by decide
theorem witness_ConfigurationWrites : State.reset.op = none ∧ d1.op ≠ none := by decide
/-- The edges of each range of offsets. -/
theorem witness_ReadOnlyAndReservedOffsets :
    (0x034 < 0x1000 ∧ 0x034 % 4 = 0 ∧ 0x034 ∈ [0x000, 0x004, 0x010, 0x014, 0x01C, 0x02C, 0x030, 0x034]) ∧
    (0xFFC < 0x1000 ∧ 0xFFC % 4 = 0 ∧ 0x038 ≤ 0xFFC ∧ 0xC00 ≤ 0xFFC) ∧
    (0x038 % 4 = 0 ∧ 0x038 ≤ 0x038 ∧ 0x038 ≤ 0x3FC ∧ 0x3FC % 4 = 0) := by decide
theorem witness_ControlWriteStoresEnable : (1#32).toNat / 2 % 2 = 0 ∧ (0#32).toNat / 2 % 2 = 0 := by decide
theorem witness_SoftResetKeepsPlanes : (2#32).toNat / 2 % 2 = 1 ∧ (3#32).toNat / 2 % 2 = 1 ∧
    d1.op.any (fun w => w.toNat % 256 == 2) = true ∧ 1 < d1.lw.toNat * d1.lh.toNat := by decide
theorem witness_BusyHostCannotDisturbEngine : d1.op ≠ none ∧
    look (fun t => t.errCode) (hostStep (.access (.write 0x020#22 (.d4 9#32))) d1) = some .writeWhileBusy ∧
    look (fun t => t.pending) (hostStep .waitIdle d1) = some [.waitIdle] := by decide
theorem witness_ResetMeetsInvariant : Config.Params.wf { maxPixels := 1, fsdBase := 0 } ∧
    Config.Params.wf { maxPixels := 2 ^ 20, fsdBase := 0x80000000 } := by decide

/-! ### States that meet the invariant -/

/-- D1 just accepted meets the invariant. -/
theorem inv_d1 : Inv d1 where
  caps := by decide
  canonical := by decide
  cellsExist := by decide
  palette := by decide
  errorNone := by decide
  errorSome := by decide
  doneIdle := by decide
  opCommand := by
    intro w hw
    cases hw
    exact ⟨.dither, by decide⟩
  cursorIdle := by decide
  latched := by decide
  frameFits := by decide
  frameHeld := fun _ c p h => frame_of_d1 c p h
  cursor := by intro _; exact .inl (by decide)

/-- The frame of palette values just accepted meets the invariant. -/
theorem inv_fixedFrame : Inv fixedFrame where
  caps := by decide
  canonical := by decide
  cellsExist := by decide
  palette := by decide
  errorNone := by decide
  errorSome := by decide
  doneIdle := by decide
  opCommand := by
    intro w hw
    cases hw
    exact ⟨.dither, by decide⟩
  cursorIdle := by decide
  latched := by decide
  frameFits := by decide
  frameHeld := fun _ c p h => frame_of_fixedFrame c p h
  cursor := by intro _; exact .inl (by decide)

/-- A host about to submit a DITHER over a frame nobody has written. -/
def unwrittenSubmission : State := issuing (writeCmd 0x00000002#32) (loaded 2#32 1#16 1#16 [])

theorem inv_unwrittenSubmission : Inv unwrittenSubmission where
  caps := by decide
  canonical := by decide
  cellsExist := by decide
  palette := by decide
  errorNone := by decide
  errorSome := by decide
  doneIdle := by decide
  opCommand := by
    intro w hw
    cases hw
  cursorIdle := by decide
  latched := by decide
  frameFits := by decide
  frameHeld := fun h => absurd h (by decide)
  cursor := fun h => absurd h (by decide)

theorem started_d1 : ditherStarted d1 := by unfold ditherStarted; decide
theorem started_fixedFrame : ditherStarted fixedFrame := by unfold ditherStarted; decide

theorem witness_StepKeepsInvariant : Inv d1 ∧ ∃ t, step d1 = .next t := ⟨inv_d1, _, rfl⟩
theorem witness_StepStopsOnlyOnUnwrittenFrame :
    (Inv d1 ∧ safeStep d1) ∧ Inv unwrittenSubmission ∧ step unwrittenSubmission = .fault (.unwritten .r 0) :=
  ⟨⟨inv_d1, _, rfl⟩, inv_unwrittenSubmission, rfl⟩
theorem witness_CanonicalMemoryIsUnique : d1.mem.wf ∧ ∀ c p, d1.mem.read c p = d1.mem.read c p :=
  ⟨by decide, fun _ _ => rfl⟩
theorem witness_EngineStepsMakeProgress : Inv d1 ∧ d1.op = some 0x02#32 ∧ decode 0x02#32 = .ok .dither :=
  ⟨inv_d1, by decide, by decide⟩
theorem witness_AcceptedCommandCompletes : Inv d1 ∧ d1.op = some 0x02#32 ∧ d1.pending = [] :=
  ⟨inv_d1, by decide, by decide⟩
/-- A host that waits for `IRQ` while the DITHER of vector D1 runs, the schedule giving each a turn. -/
def d1Waiting : State := { d1 with ie := true, pending := [.waitIrq], schedule := [.host, .engine, .host] }
theorem witness_InterruptWaitOrdersResults : Inv d1Waiting ∧ d1Waiting.op = some 0x02#32 ∧ d1Waiting.ie = true ∧
    d1Waiting.err = false ∧ d1Waiting.pending = [.waitIrq] :=
  ⟨⟨inv_d1.caps, inv_d1.canonical, inv_d1.cellsExist, inv_d1.palette, inv_d1.errorNone, inv_d1.errorSome, inv_d1.doneIdle,
    inv_d1.opCommand, inv_d1.cursorIdle, inv_d1.latched, inv_d1.frameFits, inv_d1.frameHeld, inv_d1.cursor⟩,
    by decide, by decide, by decide, by decide⟩
theorem witness_DitherRunIsRasterTraversal : Inv d1 ∧ ditherStarted d1 ∧ 1 < d1.lw.toNat ∧ 0 < d1.lh.toNat :=
  ⟨inv_d1, started_d1, by decide, by decide⟩
theorem witness_DitherRangeClosure : Inv d1 ∧ ditherStarted d1 ∧ 2 ≤ d1.palN.toNat ∧ 1 < d1.lw.toNat * d1.lh.toNat :=
  ⟨inv_d1, started_d1, by decide, by decide⟩
theorem witness_DitherKeepsPaletteFrames : Inv fixedFrame ∧ ditherStarted fixedFrame ∧ 2 ≤ fixedFrame.palN.toNat ∧
    ∀ c p v, p < fixedFrame.lw.toNat * fixedFrame.lh.toNat → fixedFrame.mem.read c p = some v →
      v.toNat ∈ palSeq fixedFrame.palN.toNat := by
  refine ⟨inv_fixedFrame, started_fixedFrame, by decide, ?_⟩
  have h : ∀ c p, p < 4 → (fixedFrame.mem.read c p).all (fun v => decide (v.toNat ∈ palSeq 2)) = true := by
    intro c
    cases c <;> decide
  intro c p v hp hv
  have h1 := h c p hp
  rw [hv] at h1
  exact of_decide_eq_true h1
/-- Two states with one R plane and different G planes. -/
theorem witness_ChannelsAreIndependent :
    let s' := { d1 with mem := { d1.mem with g := planeFrom 0 [1#8, 2#8] } }
    d1.palN = s'.palN ∧ d1.lw = s'.lw ∧ d1.lh = s'.lh ∧ d1.px = s'.px ∧ d1.py = s'.py ∧
    d1.mem.plane .r = s'.mem.plane .r ∧ d1.mem.g ≠ s'.mem.g ∧
    (∃ t, exec .dither d1 = .next t) ∧ ∃ t', exec .dither s' = .next t' := by
  refine ⟨rfl, rfl, rfl, rfl, rfl, rfl, by decide, ⟨_, rfl⟩, ⟨_, rfl⟩⟩
theorem witness_DitherKeepsGrayscale : Inv d1 ∧ ditherStarted d1 ∧ d1.mem.r = d1.mem.g ∧ d1.mem.g = d1.mem.b :=
  ⟨inv_d1, started_d1, by decide, by decide⟩

end Sys2Proof.Tests
end

section
/-! PROOF. Who moves in a step (00_scope.md R12, 40_command.md R104): the branches of `step` that `step_engine_alone` does
not state, and the obligations O8 and O9. -/

namespace Sys2Proof.Machine

variable {s : State} {w : Word} {h : HostOp} {rest : List HostOp} {sched : List Agent}

/-- With the schedule used up the engine moves whenever a command runs, whatever the host has pending. -/
theorem step_schedule_empty (hw : s.op = some w) (hs : s.schedule = []) : step s = engineStep w s := by
  cases hp : s.pending with
  | nil => exact step_engine_alone hw hp
  | cons h rest => simp [step, hw, hp, hs]

/-- Where both agents can move and the schedule names the engine, the engine moves and the entry is used up. -/
theorem step_schedule_engine (hw : s.op = some w) (hp : s.pending = h :: rest) (hs : s.schedule = .engine :: sched) :
    step s = engineStep w { s with schedule := sched } := by
  simp [step, hw, hp, hs]

/-- Where both agents can move and the schedule names the host, the host moves and the entry is used up. -/
theorem step_schedule_host (hw : s.op = some w) (hp : s.pending = h :: rest) (hs : s.schedule = .host :: sched) :
    step s = hostStep h { s with pending := rest, schedule := sched } := by
  simp [step, hw, hp, hs]

/-- With no command running the host moves whenever it has an item pending. -/
theorem step_host_alone (hw : s.op = none) (hp : s.pending = h :: rest) :
    step s = hostStep h { s with pending := rest } := by
  simp [step, hw, hp]

end Sys2Proof.Machine

namespace Sys2Proof.Proofs
open Sys2Proof Sys2Proof.Machine Sys2Proof.Spec

/-- Settles O8: each clause is a branch of `step` where the engine moves, and the engine's step of a word that decodes is
its command's. -/
theorem stepRunsDecodedCommand : Obligations.StepRunsDecodedCommand := by
  intro s w i hw hd
  refine ⟨fun hp => ?_, fun _ hs => ?_, fun sched hp hs => ?_⟩
  · rw [step_engine_alone hw hp, engineStep_of_decode hd]
  · rw [step_schedule_empty hw hs, engineStep_of_decode hd]
  · obtain ⟨h, rest, hpend⟩ := List.exists_cons_of_ne_nil hp
    rw [step_schedule_engine hw hpend hs, engineStep_of_decode hd]

/-- Settles O9: the two branches of `step` where the host moves, and an access item's turn is that access. -/
theorem hostMovesInProgramOrder : Obligations.HostMovesInProgramOrder := by
  intro s h rest hp
  refine ⟨fun hw => step_host_alone hw hp, fun w sched hw hs => step_schedule_host hw hp hs, fun x t hx => ?_⟩
  subst hx
  rfl

end Sys2Proof.Proofs
end

section
/-! PROOF. The invariant (10_state.md R30, R33, R45, R46; 40_command.md R106; 43_dither.md R170, R185): each effect of the
block and of the engine keeps it, so every step does, and reset meets it. The obligations O51 and O50. -/

namespace Sys2Proof.Machine

variable {s t : State}

/-! ### The shape of the invariant -/

/-- The part of the invariant that does not speak of the cursor or of a running DITHER. -/
structure BaseInv (s : State) : Prop where
  caps : s.cfg.wf
  canonical : s.mem.wf
  cellsExist : s.mem.within s.cfg.maxPixels
  palette : s.palN ≠ 1#32
  errorNone : s.err = false → s.errCode = .none ∧ s.errInfo = 0#32
  errorSome : s.err = true → s.errCode ≠ .none
  doneIdle : s.busy = true → s.done = false
  opCommand : ∀ w, s.op = some w → ∃ i, decode w = .ok i

theorem Inv.base (hi : Inv s) : BaseInv s := { hi with }

/-- While no DITHER runs, the invariant asks of the cursor only that it rests. -/
theorem Inv.of_not_dithering (hd : s.dithering = false) (hb : BaseInv s) (hc : s.px = 0#16 ∧ s.py = s.lh) : Inv s :=
  have vacuous {P : Prop} (h : s.dithering = true) : P := Bool.noConfusion (hd.symm.trans h)
  { hb with
    cursorIdle := fun _ => hc
    latched := vacuous
    frameFits := vacuous
    frameHeld := vacuous
    cursor := vacuous }

/-- The invariant does not look at IE, `RESULT`, `PAL_K`, the host's fields or the draws. -/
theorem Inv.withUnread (hi : Inv s) (ie : Bool) (result : Byte) (palK : Word) (pending : List HostOp)
    (log : List Event) (schedule : List Agent) (draws : Nat) :
    Inv { s with
      ie := ie, result := result, palK := palK
      pending := pending, log := log, schedule := schedule, draws := draws } := { hi with }

theorem not_dithering_of_not_busy (h : s.busy = false) : s.dithering = false :=
  not_dithering_of_idle ((not_busy_iff s).1 h)

/-- An accepted word has DITHER's opcode exactly when its command is DITHER (R93, R101). -/
theorem isDitherWord_iff {w : Word} {i : Instr} (h : decode w = .ok i) : isDitherWord w = true ↔ i = .dither := by
  obtain ⟨hop, -, rfl⟩ := (decode_ok_iff w i).1 h
  unfold isDitherWord commandOf
  generalize fieldOpc w = opc at hop
  interval_cases opc <;> simp

/-! ### What the engine does, said once (R105, R129, R130, R152, R171) -/

/-- What the engine's step of a running command can do. -/
inductive EngineEffect (s : State) : State → Prop where
  /-- NOP, GEN_PAL, QUANT and SATADD complete in one step and write N and `RESULT` at most. -/
  | completed (n : Word) (v : Byte) (hd : s.dithering = false) (hn : n = s.palN ∨ n ≠ 1#32) :
      EngineEffect s (complete { s with palN := n, result := v })
  /-- A pixel step of a DITHER (R172). -/
  | pixel (mem' : Memory) (hd : s.dithering = true) (hx : s.px.toNat < s.lw.toNat)
      (hy : s.py.toNat < s.lh.toNat)
      (hm : pixelMemory s.palN.toNat s.lw.toNat s.lh.toNat s.px.toNat s.py.toNat s.mem = .ok mem') :
      EngineEffect s (advanceCursor { s with mem := mem' })
  /-- The completion of a DITHER (R183). -/
  | dithered : EngineEffect s (ditherComplete s)

/-- GEN_PAL never makes N = 1 (R120). -/
theorem effectiveSize_ne_one (k : Word) : BitVec.ofNat 32 (effectiveSize k.toNat) ≠ 1#32 := by
  have hk := k.isLt
  intro h
  have h1 := congrArg BitVec.toNat h
  unfold effectiveSize at h1
  split at h1 <;> simp at h1
  omega

theorem exec_effect {i : Instr} (hd : s.dithering = true ↔ i = .dither) (h : exec i s = .next t) :
    EngineEffect s t := by
  have hother (hne : i ≠ .dither) : s.dithering = false := Bool.eq_false_iff.2 fun h => hne (hd.1 h)
  cases i with
  | nop => cases h; exact .completed s.palN s.result (hother nofun) (.inl rfl)
  | genPal => cases h; exact .completed _ s.result (hother nofun) (.inr (effectiveSize_ne_one s.palK))
  | quant v => cases h; exact .completed s.palN _ (hother nofun) (.inl rfl)
  | satadd v d => cases h; exact .completed s.palN _ (hother nofun) (.inl rfl)
  | dither =>
    obtain ⟨hx, hy, mem', hm, rfl⟩ | ⟨-, rfl⟩ := execDither_cases h
    · exact .pixel mem' (hd.2 rfl) hx hy hm
    · exact .dithered

/-- An engine step that answers a next state has one of the engine's effects. -/
theorem engineStep_effect {w : Word} (hw : s.op = some w) (h : engineStep w s = .next t) : EngineEffect s t := by
  cases hdec : decode w with
  | ok i =>
    rw [engineStep_of_decode hdec] at h
    exact exec_effect (dithering_of_op hw ▸ isDitherWord_iff hdec) h
  | illegalOpcode => simp [engineStep, hdec] at h
  | reservedBits => simp [engineStep, hdec] at h

/-! ### The block's effects keep the invariant -/

theorem Inv.recordError (hi : Inv s) {c : ErrCode} (hc : c ≠ .none) (info : Word) : Inv (recordError c info s) :=
  { hi with
    errorNone := nofun
    errorSome := fun _ => by
      cases h : s.err
      · simpa [h] using hc
      · simpa [h] using hi.errorSome h }

theorem Inv.clearDone (hi : Inv s) : Inv (clearDone s) := { hi with doneIdle := fun _ => rfl }

theorem Inv.clearError (hi : Inv s) : Inv (clearError s) :=
  { hi with
    errorNone := fun _ => ⟨rfl, rfl⟩
    errorSome := nofun }

theorem Inv.writeStatus (hi : Inv s) (v : Word) : Inv (writeStatus v s) := by
  unfold Machine.writeStatus
  split <;> split
  · exact hi.clearDone.clearError
  · exact hi.clearDone
  · exact hi.clearError
  · exact hi

theorem Inv.softReset (hi : Inv s) : Inv (softReset s) := by
  have hmem : (planesAfterSoftReset s).wf ∧ (planesAfterSoftReset s).within s.cfg.maxPixels := by
    unfold planesAfterSoftReset
    split
    · exact ⟨Memory.wf_clearBelow hi.canonical _, Memory.within_clearBelow hi.cellsExist _⟩
    · exact ⟨hi.canonical, hi.cellsExist⟩
  refine .of_not_dithering rfl ?_ ⟨rfl, rfl⟩
  exact {
    caps := hi.caps
    canonical := hmem.1
    cellsExist := hmem.2
    palette := by simp
    errorNone := fun _ => ⟨rfl, rfl⟩
    errorSome := nofun
    doneIdle := nofun
    opCommand := nofun }

/-- A command other than DITHER leaves the latches and the cursor alone. -/
theorem Inv.accept_other (hi : Inv s) {w : Word} {i : Instr} (hidle : s.busy = false) (hw : decode w = .ok i)
    (hne : i ≠ .dither) : Inv (accept w s) := by
  have hnd : isDitherWord w = false := Bool.eq_false_iff.2 fun h => hne ((isDitherWord_iff hw).1 h)
  have hbase : BaseInv (accept w s) :=
    { hi.base with
      doneIdle := fun _ => rfl
      opCommand := by rintro _ ⟨⟩; exact ⟨i, hw⟩ }
  refine .of_not_dithering hnd hbase ?_
  simpa [hnd] using hi.cursorIdle (not_dithering_of_not_busy hidle)

/-- The cursor of an accepted DITHER is legal, empty frames included (R101, R184). -/
theorem cursorLegal_start (lw lh : Nat) : cursorLegal lw lh 0 0 := by
  unfold cursorLegal; omega

/-- An accepted DITHER latches a frame that R100 and R185 have checked. -/
theorem Inv.accept_dither (hi : Inv s) {w : Word} (hw : decode w = .ok .dither)
    (hfits : requestedFrame s ≤ s.cfg.maxPixels) (hheld : frameWritten s.mem (requestedFrame s)) :
    Inv (accept w s) := by
  have hd : isDitherWord w = true := (isDitherWord_iff hw).2 rfl
  have hlw : (accept w s).lw = s.width := by simp [hd]
  have hlh : (accept w s).lh = s.height := by simp [hd]
  have hframe : latchedFrame (accept w s) = requestedFrame s := by rw [latchedFrame, hlw, hlh, requestedFrame]
  exact {
    hi.base with
    doneIdle := fun _ => rfl
    opCommand := by rintro _ ⟨⟩; exact ⟨.dither, hw⟩
    cursorIdle := by simp [hd]
    latched := fun _ => ⟨hlw, hlh⟩
    frameFits := fun _ => hframe ▸ hfits
    frameHeld := fun _ => hframe ▸ hheld
    cursor := fun _ => by simpa [hd] using cursorLegal_start _ _ }

/-- Every effect a host write can have on the block keeps the invariant. -/
theorem Inv.blockEffect (hi : Inv s) (he : BlockEffect s (.next t)) : Inv t := by
  cases he with
  | ignored => exact hi
  | error c i hc => exact hi.recordError hc i
  | enable b => exact hi.withUnread ..
  | reset => exact hi.softReset
  | status v => exact hi.writeStatus v
  | palK v h => exact hi.withUnread ..
  | width v h =>
    have hd := not_dithering_of_not_busy h
    exact .of_not_dithering hd { hi.base with } (hi.cursorIdle hd)
  | height v h =>
    have hd := not_dithering_of_not_busy h
    exact .of_not_dithering hd { hi.base with } (hi.cursorIdle hd)
  | cells c p vs h hp =>
    have hd := not_dithering_of_not_busy h
    refine .of_not_dithering hd ?_ (hi.cursorIdle hd)
    exact {
      hi.base with
      canonical := Memory.wf_writeBytes hi.canonical c p vs
      cellsExist := Memory.within_writeBytes hi.cellsExist c vs hp }
  | accepted w i h hw hne => exact hi.accept_other h hw hne
  | dither w h hw hfits hheld => exact hi.accept_dither hw hfits hheld

/-! ### The engine's effects keep the invariant -/

theorem Inv.completed (hi : Inv s) (hd : s.dithering = false) {n : Word} (hn : n ≠ 1#32) (v : Byte) :
    Inv (complete { s with palN := n, result := v }) :=
  .of_not_dithering rfl
    { hi.base with palette := hn, doneIdle := nofun, opCommand := nofun } (hi.cursorIdle hd)

theorem Inv.ditherComplete (hi : Inv s) : Inv (ditherComplete s) :=
  .of_not_dithering rfl { hi.base with doneIdle := nofun, opCommand := nofun } ⟨rfl, rfl⟩

/-- From a pixel of the frame the cursor goes to the next pixel or past the last row (R171, R172). -/
theorem cursorLegal_advance (hx : s.px.toNat < s.lw.toNat) (hy : s.py.toNat < s.lh.toNat) :
    cursorLegal s.lw.toNat s.lh.toNat (advanceCursor s).px.toNat (advanceCursor s).py.toNat := by
  obtain ⟨hpx, hpy⟩ := advanceCursor_toNat hy
  rw [hpx, hpy]
  unfold cursorLegal
  split <;> omega

theorem frameWritten_pixelMemory {n lw lh x y : Nat} {mem mem' : Memory} (hx : x < lw) (hy : y < lh)
    (hv : frameWritten mem (lw * lh)) (hm : pixelMemory n lw lh x y mem = .ok mem') : frameWritten mem' (lw * lh) :=
  fun c p hp => (pixelMemory_keeps_values hx hy hv hm c p).trans (hv c p hp)

/-- A pixel step rewrites cells of the frame only and moves the cursor on. -/
theorem Inv.pixel (hi : Inv s) (hd : s.dithering = true) {mem' : Memory} (hx : s.px.toNat < s.lw.toNat)
    (hy : s.py.toNat < s.lh.toNat)
    (hm : pixelMemory s.palN.toNat s.lw.toNat s.lh.toNat s.px.toNat s.py.toNat s.mem = .ok mem') :
    Inv (advanceCursor { s with mem := mem' }) := by
  have hheld := hi.frameHeld hd
  obtain ⟨_, hm', -, hwf, hwithin⟩ := pixelMemory_spec (n := s.palN.toNat) hx hy hheld
  cases hm.symm.trans hm'
  have hmoved : Inv { s with mem := mem' } :=
    { hi with
      canonical := hwf hi.canonical
      cellsExist := hwithin _ hi.cellsExist (hi.frameFits hd)
      frameHeld := fun _ => frameWritten_pixelMemory hx hy hheld hm }
  have hcursor := cursorLegal_advance (s := { s with mem := mem' }) hx hy
  rw [advanceCursor_eq] at hcursor ⊢
  exact {
    hmoved with
    cursorIdle := fun h => Bool.noConfusion (hd.symm.trans h)
    cursor := fun _ => hcursor }

/-- Every effect of the engine keeps the invariant. -/
theorem Inv.engineEffect (hi : Inv s) (he : EngineEffect s t) : Inv t := by
  cases he with
  | completed n v hd hn => exact hi.completed hd (hn.elim (fun h => h ▸ hi.palette) id) v
  | pixel mem' hd hx hy hm => exact hi.pixel hd hx hy hm
  | dithered => exact hi.ditherComplete

/-! ### Every step keeps it -/

theorem Inv.hostAccess {x : Access} (hi : Inv s) (h : hostAccess x s = .next t) : Inv t := by
  obtain ⟨r, k, heq⟩ | ⟨o, he, ⟨u, rfl, heq⟩ | ⟨c, p, rfl, heq⟩⟩ := hostAccess_cases x s <;> rw [heq] at h <;> cases h
  · exact hi.withUnread ..
  · exact (hi.blockEffect he).withUnread ..

theorem Inv.hostStep {op : HostOp} (hi : Inv s) (h : hostStep op s = .next t) : Inv t := by
  obtain ⟨x, ops, heq⟩ | ⟨ops, -, heq⟩ := hostStep_cases op s <;> rw [heq] at h
  · exact Inv.hostAccess (hi.withUnread ..) h
  · cases h
    exact hi.withUnread ..

theorem Inv.step (hi : Inv s) (h : step s = .next t) : Inv t := by
  obtain ⟨-, -, heq⟩ | ⟨w, sched, hw, heq⟩ | ⟨op, rest, sched, -, heq⟩ := step_cases s <;> rw [heq] at h
  · cases h
    exact hi
  · have he : EngineEffect { s with schedule := sched } t := engineStep_effect hw h
    exact Inv.engineEffect (hi.withUnread ..) he
  · exact Inv.hostStep (hi.withUnread ..) h

/-! ### Reset meets it -/

theorem inv_resetWith {c : Config.Params} (hc : c.wf) : Inv (State.resetWith c) := by
  refine .of_not_dithering rfl ?_ ⟨rfl, rfl⟩
  exact {
    caps := hc
    canonical := ⟨.nil, .nil, .nil⟩
    cellsExist := ⟨nofun, nofun, nofun⟩
    palette := by simp [State.resetWith]
    errorNone := fun _ => ⟨rfl, rfl⟩
    errorSome := nofun
    doneIdle := nofun
    opCommand := nofun }

end Sys2Proof.Machine

namespace Sys2Proof.Proofs
open Sys2Proof Sys2Proof.Machine

/-- Settles O51: a step is the idle step, an effect of the engine or a turn of the host, and each keeps the invariant. -/
theorem stepKeepsInvariant : Obligations.StepKeepsInvariant := fun _ _ hi h => hi.step h

/-- Settles O50: at reset no plane lists a cell, no command runs and no error is recorded, whatever the parameters. -/
theorem resetMeetsInvariant : Obligations.ResetMeetsInvariant :=
  ⟨fun _ hc => inv_resetWith hc, inv_resetWith (by decide)⟩

end Sys2Proof.Proofs
end

section
/-! PROOF. What the host reads and writes at each register (10_state.md R22 to R44; 20_memory.md R67, R68): one rule for a
read and one for a write at a register's offset, and the obligations O27, O28, O40, O41, O44, O45 and O46. -/

namespace Sys2Proof.Machine
open Sys2Proof.Spec

variable {a i : Nat} {v : Word} {r : Reg} {s t : State}

/-! ### The register map (R22, R42 to R44) -/

/-- The offset a is 4-aligned in the register window and has register r (R22, R63). -/
abbrev RegisterAt (a : Nat) (r : Reg) : Prop := a < 0x1000 ∧ a % 4 = 0 ∧ regAt a = r

/-- From 0x400 on the offsets are cut into windows. -/
theorem regAt_window (h : 0x400 ≤ a) :
    regAt a =
      if a < 0x800 then .pal ((a - 0x400) / 4) else if a < 0xC00 then .qlut ((a - 0x800) / 4) else .reserved := by
  unfold regAt
  iterate 14 rw [if_neg (by omega)]
  by_cases h8 : a < 0x800
  · rw [if_pos ⟨h, h8⟩, if_pos h8]
  · rw [if_neg (by omega), if_neg h8]
    simp [show 0x800 ≤ a by omega]

theorem registerAt_pal (hi : i < 256) : RegisterAt (0x400 + 4 * i) (.pal i) := by
  refine ⟨by omega, by omega, ?_⟩
  rw [regAt_window (by omega), if_pos (by omega)]
  congr 1; omega

theorem registerAt_qlut (hi : i < 256) : RegisterAt (0x800 + 4 * i) (.qlut i) := by
  refine ⟨by omega, by omega, ?_⟩
  rw [regAt_window (by omega), if_neg (by omega), if_pos (by omega)]
  congr 1; omega

theorem regAt_gap (h : 0x038 ≤ a) (h' : a < 0x400) : regAt a = .reserved := by
  unfold regAt
  iterate 16 rw [if_neg (by omega)]

theorem regAt_reserved (h : (0x038 ≤ a ∧ a ≤ 0x3FC) ∨ 0xC00 ≤ a) : regAt a = .reserved := by
  rcases h with ⟨h, h'⟩ | h
  · exact regAt_gap h (by omega)
  · rw [regAt_window (by omega), if_neg (by omega), if_neg (by omega)]

/-! ### Reads (R67) -/

theorem toNat_registerOffset (h : RegisterAt a r) : (BitVec.ofNat 22 a).toNat = a := by
  obtain ⟨ha, -, -⟩ := h
  rw [BitVec.toNat_ofNat]; omega

/-- A read that is no draw gives the register's value and changes nothing but the log. -/
theorem hostAccess_read_exact (ha : RegisterAt a r) (hr : r.drawnWhileBusy = false ∨ s.busy = false)
    (hv : readReg r s = v) :
    hostAccess (.read (.ofNat 22 a) .w4) s =
      .next { s with log := logged (.read (.ofNat 22 a) .w4) (.data (.d4 v)) s } := by
  have hn := toNat_registerOffset ha
  obtain ⟨hlt, h4, rfl⟩ := ha
  have hread := hostAccess_readReg (a := .ofNat 22 a) (s := s) (hn.symm ▸ hlt) (hn.symm ▸ h4) (hn.symm ▸ hr)
  rw [hn, hv] at hread
  exact hread

/-- A read that is a draw gives the next draw, and changes nothing but the log and the draw counter. -/
theorem hostAccess_read_draw (ha : RegisterAt a r) (hr : r.drawnWhileBusy = true) (hb : s.busy = true) :
    hostAccess (.read (.ofNat 22 a) .w4) s =
      .next { s with
        log := logged (.read (.ofNat 22 a) .w4) (.data (.d4 (Config.draw s.draws))) s
        draws := s.draws + 1 } := by
  have hn := toNat_registerOffset ha
  obtain ⟨hlt, h4, rfl⟩ := ha
  have ht : target s.cfg.maxPixels (.ofNat 22 a) .w4 = some (.register a) := by
    simpa [hn] using target_register (k := s.cfg.maxPixels) (a := .ofNat 22 a) (hn.symm ▸ hlt) (hn.symm ▸ h4)
  have hreg : hostReadReg (regAt a) s = (drawn s, useDraws 1 s) := by simp [hostReadReg, hb, hr]
  simp only [hostAccess, hostRead, ht, hreg]
  rfl

/-! ### Writes (R68) -/

/-- A write does what the register's rule says, and its response is logged. -/
theorem hostAccess_write_reg (ha : RegisterAt a r) (ht : hostWriteReg r v s = .next t) :
    hostAccess (.write (.ofNat 22 a) (.d4 v)) s =
      .next { t with log := logged (.write (.ofNat 22 a) (.d4 v)) .ok t } := by
  have hn := toNat_registerOffset ha
  obtain ⟨hlt, h4, rfl⟩ := ha
  exact hostAccess_writeReg (hn.symm ▸ hlt) (hn.symm ▸ h4) (hn.symm ▸ ht)

theorem writeConfig_idle (i : Word) (t : State) (h : s.busy = false) : writeConfig i t s = t := by
  simp [writeConfig, h]

theorem writeConfig_busy (i : Word) (t : State) (h : s.busy = true) :
    writeConfig i t s = recordError .writeWhileBusy i s := by
  simp [writeConfig, h]

/-- Nothing from 0x038 on can be written (R44, R68). -/
theorem hostWriteReg_window (h : 0x038 ≤ a) (v : Word) (s : State) : hostWriteReg (regAt a) v s = .next s := by
  rcases Nat.lt_or_ge a 0x400 with ha | ha
  · rw [regAt_gap h ha]; rfl
  · rw [regAt_window ha]
    split
    · rfl
    · split <;> rfl

/-! ### `STATUS` and the other flags as numbers (R25, R28) -/

theorem getLsbD_iff (v : Word) (k : Nat) : v.getLsbD k = true ↔ v.toNat / 2 ^ k % 2 = 1 := by
  rw [BitVec.getLsbD, Nat.testBit_eq_decide_div_mod_eq, decide_eq_true_eq]

theorem writeStatus_eq (v : Word) (s : State) :
    writeStatus v s =
      { s with
        done := if v.toNat / 2 % 2 = 1 then false else s.done
        err := if v.toNat / 4 % 2 = 1 then false else s.err
        errCode := if v.toNat / 4 % 2 = 1 then .none else s.errCode
        errInfo := if v.toNat / 4 % 2 = 1 then 0#32 else s.errInfo } := by
  have h1 : v.getLsbD 1 = true ↔ v.toNat / 2 % 2 = 1 := getLsbD_iff v 1
  have h2 : v.getLsbD 2 = true ↔ v.toNat / 4 % 2 = 1 := getLsbD_iff v 2
  unfold writeStatus
  by_cases hd : v.toNat / 2 % 2 = 1 <;> by_cases he : v.toNat / 4 % 2 = 1 <;>
    simp only [h1, h2, hd, he, if_true, if_false] <;> rfl

theorem toNat_bits (b0 b1 b2 b3 : Bool) :
    (bitAt 0 b0 ||| bitAt 1 b1 ||| bitAt 2 b2 ||| bitAt 3 b3).toNat =
      b0.toNat + 2 * b1.toNat + 4 * b2.toNat + 8 * b3.toNat := by
  revert b0 b1 b2 b3; decide

theorem statusWord_toNat (s : State) :
    (statusWord s).toNat = s.busy.toNat + 2 * s.done.toNat + 4 * s.err.toNat + 8 * s.palValid.toNat :=
  toNat_bits ..

theorem ctrlWord_toNat (s : State) : (ctrlWord s).toNat = s.ie.toNat := by
  unfold ctrlWord; cases s.ie <;> rfl

theorem palValid_toNat (s : State) : s.palValid.toNat = if s.palN.toNat = 0 then 0 else 1 := by
  unfold State.palValid
  by_cases h : s.palN = 0#32
  · simp [h]
  · have : s.palN.toNat ≠ 0 := fun h0 => h (BitVec.eq_of_toNat_eq h0)
    simp [h, this]

end Sys2Proof.Machine

namespace Sys2Proof.Proofs
open Sys2Proof Sys2Proof.Machine Sys2Proof.Spec

/-- Settles O27: these four registers are never a draw, and `STATUS` is the sum of its bits. -/
theorem statusRegistersRead : Obligations.StatusRegistersRead := by
  intro s bit reads
  have hbit (b : Bool) : b.toNat = bit b := by cases b <;> rfl
  refine ⟨⟨statusWord s, hostAccess_read_exact (r := .status) (by decide) (.inl rfl) rfl, ?_⟩,
    ⟨ctrlWord s, hostAccess_read_exact (r := .ctrl) (by decide) (.inl rfl) rfl, ?_⟩,
    ⟨s.errCode.word, hostAccess_read_exact (r := .errCode) (by decide) (.inl rfl) rfl, ?_⟩,
    hostAccess_read_exact (r := .errInfo) (by decide) (.inl rfl) rfl⟩
  · rw [statusWord_toNat, palValid_toNat, hbit, hbit, hbit, State.busy]
  · rw [ctrlWord_toNat, hbit]
  · cases s.errCode <;> rfl

/-- Settles O28: `STATUS` has no BUSY check, and bits 1 and 2 of the value choose what is cleared. -/
theorem statusWriteClears : Obligations.StatusWriteClears := by
  intro v s
  exact hostAccess_write_reg (a := 0x00C) (r := .status) (by decide) (congrArg Host.Outcome.next (writeStatus_eq v s))

/-- Settles O40: none of these registers is a draw; `PAL` shows the entries of R121, and the form of `QLUT` that the machine
evaluates is the scan of R125. -/
theorem registersReadExactly : Obligations.RegistersReadExactly := by
  intro s _ reads
  refine ⟨hostAccess_read_exact (r := .id) (by decide) (.inl rfl) rfl,
    hostAccess_read_exact (r := .caps) (by decide) (.inl rfl) rfl,
    hostAccess_read_exact (r := .cmd) (by decide) (.inl rfl) rfl,
    hostAccess_read_exact (r := .width) (by decide) (.inl rfl) (BitVec.ofNat_toNat ..).symm,
    hostAccess_read_exact (r := .height) (by decide) (.inl rfl) (BitVec.ofNat_toNat ..).symm,
    hostAccess_read_exact (r := .palK) (by decide) (.inl rfl) (by simp [readReg]),
    hostAccess_read_exact (r := .palCount) (by decide) (.inl rfl) (by simp [readReg]),
    fun i hi => hostAccess_read_exact (registerAt_pal hi) (.inl rfl) rfl,
    fun v hv => hostAccess_read_exact (registerAt_qlut hv) (.inl rfl) ?_⟩
  rw [readReg, quantize_eq_nearest, level]

/-- Settles O41: the three registers that are a draw exactly while a command runs. -/
theorem resultAndCursorReads : Obligations.ResultAndCursorReads := by
  intro s idle busy
  refine ⟨fun h => ?_, fun h => ?_⟩
  · have hb := (not_busy_iff s).2 h
    exact ⟨hostAccess_read_exact (r := .result) (by decide) (.inr hb) (BitVec.ofNat_toNat ..).symm,
      hostAccess_read_exact (r := .curX) (by decide) (.inr hb) (BitVec.ofNat_toNat ..).symm,
      hostAccess_read_exact (r := .curY) (by decide) (.inr hb) (BitVec.ofNat_toNat ..).symm⟩
  · have hb := (busy_iff s).2 (Option.ne_none_iff_exists'.1 h)
    exact ⟨hostAccess_read_draw (r := .result) (by decide) rfl hb,
      hostAccess_read_draw (r := .curX) (by decide) rfl hb,
      hostAccess_read_draw (r := .curY) (by decide) rfl hb⟩

/-- Settles O44: the three writes are one configuration write, which BUSY alone decides. -/
theorem configurationWrites : Obligations.ConfigurationWrites := by
  intro v s stored refused
  refine ⟨fun h => ?_, fun h => ?_⟩
  · have hb := (not_busy_iff s).2 h
    have hstore (i t) : (.next (writeConfig i t s) : Host.Outcome State Fault Refusal) = .next t := by
      rw [writeConfig_idle i t hb]
    rw [BitVec.ofNat_toNat]
    exact ⟨hostAccess_write_reg (a := 0x020) (r := .width) (by decide) (hstore ..),
      hostAccess_write_reg (a := 0x024) (r := .height) (by decide) (hstore ..),
      hostAccess_write_reg (a := 0x028) (r := .palK) (by decide) (hstore ..)⟩
  · have hb := (busy_iff s).2 (Option.ne_none_iff_exists'.1 h)
    have hrefuse (i t) : (.next (writeConfig i t s) : Host.Outcome State Fault Refusal) =
        .next (recordError .writeWhileBusy i s) := by
      rw [writeConfig_busy i t hb]
    exact ⟨hostAccess_write_reg (a := 0x020) (r := .width) (by decide) (hrefuse ..),
      hostAccess_write_reg (a := 0x024) (r := .height) (by decide) (hrefuse ..),
      hostAccess_write_reg (a := 0x028) (r := .palK) (by decide) (hrefuse ..)⟩

/-- Settles O45: the listed registers and all from 0x038 on ignore a write, and the gaps of the map read 0. -/
theorem readOnlyAndReservedOffsets : Obligations.ReadOnlyAndReservedOffsets := by
  intro a v s ha h4
  refine ⟨fun h => ?_, fun h => ?_⟩
  · have hignored : hostWriteReg (regAt a) v s = .next s := by
      rcases h with h | h
      · simp only [List.mem_cons, List.not_mem_nil, or_false] at h
        rcases h with rfl | rfl | rfl | rfl | rfl | rfl | rfl | rfl <;> rfl
      · exact hostWriteReg_window h v s
    exact hostAccess_write_reg ⟨ha, h4, rfl⟩ hignored
  · exact hostAccess_read_exact ⟨ha, h4, regAt_reserved h⟩ (.inl rfl) rfl

/-- Settles O46: without bit 1 the value's bit 0 goes to IE. -/
theorem controlWriteStoresEnable : Obligations.ControlWriteStoresEnable := by
  intro v s hv
  have h1 : v.getLsbD 1 = false := by
    rw [Bool.eq_false_iff, Ne, getLsbD_iff]; omega
  have h0 : v.getLsbD 0 = (v.toNat % 2 == 1) := by
    rw [Bool.eq_iff_iff, getLsbD_iff]; simp
  have hctrl : writeCtrl v s = { s with ie := v.toNat % 2 == 1 } := by
    rw [writeCtrl, h1, h0]; rfl
  exact hostAccess_write_reg (a := 0x008) (r := .ctrl) (by decide) (congrArg Host.Outcome.next hctrl)

end Sys2Proof.Proofs
end

section
/-! PROOF. The interrupt line (10_state.md R48; 60_exceptions.md R208, R215): which steps can reach the log of host faults
and which can complete a command. The obligation O29. -/

namespace Sys2Proof.Machine

variable {s t : State}

/-! ### Host faults -/

theorem hostFaults_of_log (h : t.log = s.log) : t.hostFaults = s.hostFaults := by
  rw [State.hostFaults, State.hostFaults, h]

/-- Only a bus error enters the list of host faults (R208). -/
theorem hostFaults_logEvent_ok (x : Access) (s : State) : (logEvent x .ok s).hostFaults = s.hostFaults := by
  simp [State.hostFaults]

/-! ### What each effect does to the log, to BUSY and to IE -/

theorem BlockEffect.log_eq (he : BlockEffect s (.next t)) : t.log = s.log := by
  cases he with
  | status v => rw [writeStatus_eq]
  | _ => rfl

/-- A host write ends a running command only by a soft reset, which leaves DONE at 0 (R49, R242). -/
theorem BlockEffect.stays_busy (he : BlockEffect s (.next t)) (hb : s.busy = true) :
    t.busy = true ∨ t.done = false := by
  cases he with
  | reset => exact .inr rfl
  | status v => rw [writeStatus_eq]; exact .inl hb
  | accepted => exact .inl rfl
  | dither => exact .inl rfl
  | _ => exact .inl hb

theorem EngineEffect.ie_log_eq (he : EngineEffect s t) : t.ie = s.ie ∧ t.log = s.log := by
  cases he <;> simp

/-! ### The rule of a step -/

/-- What a step from s to t may do to `IRQ` (R215). -/
structure IrqRule (s t : State) : Prop where
  busError : t.hostFaults.length ≠ s.hostFaults.length → t.irq = s.irq
  completion : s.busy = true → t.busy = false → t.done = true → t.irq = s.ie

/-- Where neither the log, a flag nor BUSY moves there is nothing to say. -/
theorem IrqRule.refl (s : State) : IrqRule s s where
  busError h := absurd rfl h
  completion hb hi := Bool.noConfusion (hb.symm.trans hi)

/-- An engine step logs no access, and a completion sets DONE under the IE there is. -/
theorem IrqRule.engineEffect (he : EngineEffect s t) : IrqRule s t := by
  obtain ⟨hie, hlog⟩ := he.ie_log_eq
  exact {
    busError := fun h => absurd (congrArg List.length (hostFaults_of_log hlog)) h
    completion := fun _ _ hd => by simp [State.irq, hd, hie] }

/-- An access with a bus error, like a read, changes neither a flag nor BUSY; any other write is no bus error. -/
theorem IrqRule.hostAccess {x : Access} (h : hostAccess x s = .next t) : IrqRule s t := by
  obtain ⟨r, k, heq⟩ | ⟨o, he, ⟨u, rfl, heq⟩ | ⟨c, p, rfl, heq⟩⟩ := hostAccess_cases x s <;> rw [heq] at h <;> cases h
  · exact {
      busError := fun _ => rfl
      completion := fun hb hi => Bool.noConfusion (hb.symm.trans hi) }
  · have hfaults : (logEvent x .ok u).hostFaults = s.hostFaults :=
      (hostFaults_logEvent_ok x u).trans (hostFaults_of_log he.log_eq)
    exact {
      busError := fun h => absurd (congrArg List.length hfaults) h
      completion := fun hb hi hd =>
        (he.stays_busy hb).elim (fun hu => Bool.noConfusion (hu.symm.trans hi))
          (fun hu => Bool.noConfusion (hu.symm.trans hd)) }

theorem IrqRule.hostStep {op : HostOp} (h : hostStep op s = .next t) : IrqRule s t := by
  obtain ⟨x, ops, heq⟩ | ⟨ops, -, heq⟩ := hostStep_cases op s <;> rw [heq] at h
  · obtain ⟨hbus, hdone⟩ := IrqRule.hostAccess h
    exact ⟨hbus, hdone⟩
  · cases h
    obtain ⟨hbus, hdone⟩ := IrqRule.refl s
    exact ⟨hbus, hdone⟩

theorem IrqRule.step (h : step s = .next t) : IrqRule s t := by
  obtain ⟨-, -, heq⟩ | ⟨w, sched, hw, heq⟩ | ⟨op, rest, sched, -, heq⟩ := step_cases s <;> rw [heq] at h
  · cases h
    exact .refl s
  · have he : EngineEffect { s with schedule := sched } t := engineStep_effect hw h
    obtain ⟨hbus, hdone⟩ := IrqRule.engineEffect he
    exact ⟨hbus, hdone⟩
  · obtain ⟨hbus, hdone⟩ := IrqRule.hostStep h
    exact ⟨hbus, hdone⟩

end Sys2Proof.Machine

namespace Sys2Proof.Proofs
open Sys2Proof Sys2Proof.Machine

/-- Settles O29: `IRQ` is a view of the state, and a step keeps the rule for bus errors and completions. -/
theorem irqFollowsItsBits : Obligations.IrqFollowsItsBits := by
  intro s t h
  obtain ⟨hbus, hdone⟩ := IrqRule.step h
  exact ⟨by simp [State.irq], hbus, hdone⟩

end Sys2Proof.Proofs
end

section
/-! PROOF. Canonical memories (10_state.md R45) and the state after power-on reset (R49; 70_reset_and_hazards.md R240, R241).
The obligations O53 and O49. -/

namespace Sys2Proof.Machine

/-- In canonical form a cell is listed exactly when it reads as its sample. -/
theorem Plane.mem_iff_read {m : Plane} (hw : Plane.wf m) (c : Host.Cell) : c ∈ m ↔ Plane.read m c.1 = some c.2 :=
  ⟨Plane.read_of_mem hw, Plane.mem_of_read⟩

/-- Lists with strictly rising indexes and the same cells are equal. -/
theorem Plane.ext_read {m m' : Plane} (hw : Plane.wf m) (hw' : Plane.wf m')
    (h : ∀ p, Plane.read m p = Plane.read m' p) : m = m' := by
  have : Std.Irrefl fun x y : Host.Cell => x.1 < y.1 := ⟨fun _ => Nat.lt_irrefl _⟩
  have : Std.Antisymm fun x y : Host.Cell => x.1 < y.1 := ⟨fun _ _ h h' => absurd h (Nat.lt_asymm h')⟩
  refine List.Pairwise.eq_of_mem_iff hw hw' fun c => ?_
  rw [Plane.mem_iff_read hw, Plane.mem_iff_read hw', h]

theorem Memory.ext_plane {m m' : Memory} (h : ∀ c, m.plane c = m'.plane c) : m = m' := by
  cases m; cases m'
  congr
  · exact h .r
  · exact h .g
  · exact h .b

theorem Memory.read_resetWith (c : Config.Params) (ch : Channel) (p : Nat) :
    (State.resetWith c).mem.read ch p = none := by
  cases ch <;> rfl

/-- BUSY, DONE, ERR and PAL_VALID are all 0 at reset. -/
theorem statusWord_resetWith (c : Config.Params) : statusWord (State.resetWith c) = 0#32 :=
  BitVec.eq_of_toNat_eq (statusWord_toNat _)

theorem quantize_zero (v : Nat) : quantize 0 v = 0 := by simp [quantize]

end Sys2Proof.Machine

namespace Sys2Proof.Proofs
open Sys2Proof Sys2Proof.Machine

/-- Settles O53: a canonical plane is the rising list of the cells that read as a sample. -/
theorem canonicalMemoryIsUnique : Obligations.CanonicalMemoryIsUnique := by
  intro m m' hw hw' h
  rw [Memory.wf_iff] at hw hw'
  exact Memory.ext_plane fun c => Plane.ext_read (hw c) (hw' c) (h c)

/-- Settles O49: the registers are the fields of `State.resetWith`, and with neither a command nor a host item a step changes
nothing. -/
theorem powerOnResetState : Obligations.PowerOnResetState := fun c =>
  ⟨rfl, rfl, rfl, rfl, rfl, rfl, rfl, rfl, rfl, rfl, rfl, rfl, rfl, rfl, rfl, rfl, rfl, statusWord_resetWith c,
    Memory.read_resetWith c, quantize_zero, rfl⟩

end Sys2Proof.Proofs
end

section
/-! PROOF. The bus (20_memory.md R60 to R67, R69, R72): which accesses the checks refuse, and what a read can answer. The
obligations O37, O38 and O39. -/

namespace Sys2Proof.Machine
open Sys2Proof.Spec

variable {k : Nat} {a : Offset} {n : Width} {s t : State} {x : Access}

/-! ### The bus checks (R63 to R66) -/

theorem Width.bytes_cases (n : Width) : n.bytes = 1 ∨ n.bytes = 2 ∨ n.bytes = 4 := by
  cases n <;> simp [Width.bytes]

theorem Width.eq_w4_iff : n = .w4 ↔ n.bytes = 4 := by
  cases n <;> simp [Width.bytes]

/-- The accesses R63 to R66 refuse, at offset a and n bytes wide in planes of k cells. -/
abbrev BusRefused (k a n : Nat) : Prop :=
  (a ≤ 0xFFF ∧ (n ≠ 4 ∨ a % 4 ≠ 0)) ∨ (0x1000 ≤ a ∧ a ≤ 0xFFFFF) ∨
    (0x100000 ≤ a ∧ (a % n ≠ 0 ∨ k < a % 0x100000 + n))

/-- The machine's checks refuse what the rules refuse. -/
theorem target_eq_none_iff : target k a n = none ↔ BusRefused k a.toNat n.bytes := by
  unfold target BusRefused
  simp only [Width.eq_w4_iff]
  repeat' split
  all_goals simp only [reduceCtorEq, true_iff, false_iff]; omega

/-- An access that passes the checks ends in the window where it begins. -/
theorem same_window_of_not_refused {a : Nat} (h : ¬BusRefused k a n.bytes) :
    (a + n.bytes - 1) / 0x100000 = a / 0x100000 := by
  unfold BusRefused at h
  rcases n.bytes_cases with hn | hn | hn <;> rw [hn] at h ⊢ <;> omega

/-! ### Reads (R67, R69, R72) -/

/-- A read is refused and changes nothing, or it answers data and uses draws at most. -/
theorem hostRead_cases (a : Offset) (n : Width) (s : State) :
    (target s.cfg.maxPixels a n = none ∧ hostRead a n s = (.busError, s)) ∨
      (target s.cfg.maxPixels a n ≠ none ∧ ∃ d i, hostRead a n s = (.data d, useDraws i s)) := by
  unfold hostRead
  split
  · exact .inl ⟨‹_›, rfl⟩
  · next r ht =>
    obtain ⟨i, hi⟩ := hostReadReg_state (regAt r) s
    exact .inr ⟨by simp [ht], _, i, by rw [hi]⟩
  · next c p ht =>
    obtain ⟨i, hi⟩ := hostReadPlane_state c p n s
    exact .inr ⟨by simp [ht], _, i, by rw [hi]⟩

/-- A read access leaves a response and draws behind, and nothing else. -/
theorem hostAccess_read (a : Offset) (n : Width) (s : State) :
    ∃ r i, r ≠ .ok ∧ hostAccess (.read a n) s = .next (logEvent (.read a n) r (useDraws i s)) := by
  obtain ⟨-, hr⟩ | ⟨-, d, i, hr⟩ := hostRead_cases a n s
  · exact ⟨.busError, 0, nofun, by simp only [hostAccess, hr]; rfl⟩
  · exact ⟨.data d, i, nofun, by simp only [hostAccess, hr]⟩

/-! ### The response of an access (R9, R208) -/

/-- A refused access gets a bus error and changes nothing but the log. -/
theorem hostAccess_of_target_none (h : target s.cfg.maxPixels x.offset x.width = none) :
    hostAccess x s = .next (logEvent x .busError s) := by
  cases x with
  | read a n =>
    obtain ⟨-, hr⟩ | ⟨hne, -⟩ := hostRead_cases a n s
    · simp [hostAccess, hr]
    · exact absurd h hne
  | write a d => simp only [hostAccess, show target s.cfg.maxPixels a d.width = none from h]

/-- A write that passes the checks is its target's rule, and its response is logged. -/
theorem hostAccess_write_of_target {d : BusData} {g : Target} (h : target s.cfg.maxPixels a d.width = some g)
    (ht : hostAccess (.write a d) s = .next t) :
    ∃ u, hostWriteTarget a d g s = .next u ∧ t = logEvent (.write a d) .ok u := by
  simp only [hostAccess, h] at ht
  split at ht
  · next u hu => exact ⟨u, hu, (Host.Outcome.next.inj ht).symm⟩
  · nomatch ht
  · nomatch ht

/-- No other access gets a bus error. -/
theorem response_of_target (h : target s.cfg.maxPixels x.offset x.width ≠ none) (ht : hostAccess x s = .next t) :
    ∃ r u, r ≠ .busError ∧ t = logEvent x r u := by
  cases x with
  | read a n =>
    obtain ⟨hnone, -⟩ | ⟨-, d, i, hr⟩ := hostRead_cases a n s
    · exact absurd hnone h
    · simp only [hostAccess, hr] at ht
      exact ⟨.data d, _, nofun, (Host.Outcome.next.inj ht).symm⟩
  | write a d =>
    obtain ⟨g, hg⟩ := Option.ne_none_iff_exists'.1 h
    obtain ⟨u, -, hu⟩ := hostAccess_write_of_target hg ht
    exact ⟨.ok, u, nofun, hu⟩

end Sys2Proof.Machine

namespace Sys2Proof.Proofs
open Sys2Proof Sys2Proof.Machine Sys2Proof.Spec

/-- Settles O37: the checks answer no target exactly for the refused accesses, and the target decides the response. -/
theorem busErrorsChangeNothing : Obligations.BusErrorsChangeNothing := by
  intro x s a n refused
  have hrefused : target s.cfg.maxPixels x.offset x.width = none ↔ refused := target_eq_none_iff
  refine ⟨fun h => hostAccess_of_target_none (hrefused.2 h), fun h t ht => ?_, same_window_of_not_refused⟩
  obtain ⟨r, u, hr, rfl⟩ := response_of_target (mt hrefused.1 h) ht
  simpa using hr

/-- Settles O38: an offset is the distance from `FSD_BASE`, and 22 bits hold every distance below 2^22. -/
theorem addressesAreOffsetsFromBase : Obligations.AddressesAreOffsetsFromBase := by
  intro c addr a
  have ha := a.isLt
  unfold offsetOfAddress
  split
  · simp only [Option.some.injEq, ← BitVec.toNat_inj, BitVec.toNat_ofNat]; omega
  · simp only [reduceCtorEq, false_iff]; omega

/-- Settles O39: a read's response is a bus error or data, and its draws are all it leaves behind. -/
theorem readsChangeNoState : Obligations.ReadsChangeNoState := by
  intro a n s
  obtain ⟨r, k, hr, heq⟩ := hostAccess_read a n s
  exact ⟨r, k, heq, hr⟩

end Sys2Proof.Proofs
end

section
/-! PROOF. Plane reads and writes (20_memory.md R61, R62, R69, R70): the target of an offset in a plane's window, the bytes
of bus data in little-endian order, and the cells of an access. The obligations O42 and O43. -/

namespace Sys2Proof.Machine
open Sys2Proof.Spec

variable {c : Channel} {p j k : Nat} {n : Width} {s : State}

/-! ### The windows of the planes (R61, R66) -/

theorem toNat_planeOffset (c : Channel) (hp : p < 0x100000) :
    (BitVec.ofNat 22 (planeBase c + p)).toNat = planeBase c + p := by
  rw [BitVec.toNat_ofNat]
  cases c <;> simp only [planeBase] <;> omega

theorem planeOf_planeBase (c : Channel) (hp : p < 0x100000) : planeOf (planeBase c + p) = c := by
  cases c with
  | r => exact if_pos (show 0x100000 + p < 0x200000 by omega)
  | g =>
    exact (if_neg (show ¬0x200000 + p < 0x200000 by omega)).trans (if_pos (show 0x200000 + p < 0x300000 by omega))
  | b =>
    exact (if_neg (show ¬0x300000 + p < 0x200000 by omega)).trans
      (if_neg (show ¬0x300000 + p < 0x300000 by omega))

/-- The base of a plane's window is a multiple of its size. -/
theorem planeBase_eq (c : Channel) : ∃ w, 1 ≤ w ∧ planeBase c = 0x100000 * w := by
  cases c
  · exact ⟨1, by decide, rfl⟩
  · exact ⟨2, by decide, rfl⟩
  · exact ⟨3, by decide, rfl⟩

/-- An aligned access to existing cells, at the base of the plane's window, has these cells as its target. -/
theorem target_planeOffset (c : Channel) (hk : k ≤ 2 ^ 20) (h0 : p % n.bytes = 0) (hp : p + n.bytes ≤ k) :
    target k (.ofNat 22 (planeBase c + p)) n = some (.cells c p) := by
  have hn := n.bytes_cases
  have hlt : p < 0x100000 := by omega
  obtain ⟨w, hw, hbase⟩ := planeBase_eq c
  have halign : (planeBase c + p) % n.bytes = 0 := by
    rcases hn with hn | hn | hn <;> rw [hn] at h0 ⊢ <;> omega
  have hcell : (planeBase c + p) % 0x100000 = p := by omega
  unfold target
  rw [toNat_planeOffset c hlt, if_neg (by omega), if_neg (by omega), if_neg (not_not_intro halign), hcell,
    if_pos hp, planeOf_planeBase c hlt]

/-! ### Bytes (R62) -/

theorem byteOf_ofWord (w : Word) (hj : j < n.bytes) : byteOf (BusData.ofWord n w) j = w.extractLsb' (8 * j) 8 := by
  ext i hi
  cases n <;> simp only [Width.bytes] at hj <;> simp [byteOf, BusData.ofWord] <;> omega

/-- Byte j of the word is entry j of the list it is made of. -/
theorem extractLsb'_wordOfByteList (vs : List Byte) (hj : j < 4) :
    (wordOfByteList vs).extractLsb' (8 * j) 8 = vs[j]?.getD 0#8 := by
  induction vs generalizing j with
  | nil => simp [wordOfByteList]
  | cons v vs ih =>
    cases j with
    | zero => ext i hi; simp [wordOfByteList, hi]; exact fun _ => by omega
    | succ j =>
      rw [List.getElem?_cons_succ, ← ih (by omega)]
      ext i hi
      have hword : 8 * (j + 1) + i < 32 := by omega
      have habove : 8 ≤ 8 * (j + 1) + i := by omega
      have hbelow : 8 * (j + 1) + i - 8 = 8 * j + i := by omega
      simp [wordOfByteList, hword, Nat.not_lt.2 habove, hbelow, BitVec.getLsbD_of_ge v _ habove,
        BitVec.getLsbD_eq_getElem (show 8 * j + i < 32 by omega)]

theorem byteOf_ofBytes {vs : List Byte} {b : Byte} (hj : j < n.bytes) (hb : vs[j]? = some b) :
    byteOf (BusData.ofBytes n vs) j = b := by
  have hn := n.bytes_cases
  rw [BusData.ofBytes, byteOf_ofWord _ hj, extractLsb'_wordOfByteList vs (by omega), hb, Option.getD_some]

@[simp] theorem width_ofWord (n : Width) (w : Word) : (BusData.ofWord n w).width = n := by cases n <;> rfl

/-- Entry j of the data's bytes is byte j. -/
theorem getElem?_bytes {d : BusData} (hj : j < d.width.bytes) : d.bytes[j]? = some (byteOf d j) := by
  cases d with
  | d1 v =>
    obtain rfl : j = 0 := by simpa [BusData.width, Width.bytes] using hj
    simp [BusData.bytes, byteOf]
  | d2 v =>
    simp only [BusData.width, Width.bytes] at hj
    interval_cases j <;> rfl
  | d4 v =>
    simp only [BusData.width, Width.bytes] at hj
    interval_cases j <;> rfl

/-! ### What a plane read gives (R69) -/

/-- The byte b that a read gives for cell q: its sample, or one of the draws from lo on and below hi. -/
structure CellByte (m : Plane) (q lo hi : Nat) (b : Byte) : Prop where
  sample : ∀ v, Plane.read m q = some v → b = v
  draw : Plane.read m q = none → ∃ i, lo ≤ i ∧ i < hi ∧ b = (Config.draw i).extractLsb' 0 8

theorem CellByte.mono {m : Plane} {q lo hi lo' hi' : Nat} {b : Byte} (h : CellByte m q lo hi b) (hlo : lo' ≤ lo)
    (hhi : hi ≤ hi') : CellByte m q lo' hi' b where
  sample := h.sample
  draw hq := by
    obtain ⟨i, h1, h2, hb⟩ := h.draw hq
    exact ⟨i, by omega, by omega, hb⟩

/-- Entry j of the cells read is the byte of cell p + j. -/
theorem readCells_byte (m : Plane) (n p k : Nat) (hj : j < n) :
    ∃ b, (readCells m n p k).1[j]? = some b ∧ CellByte m (p + j) k (k + (readCells m n p k).2) b := by
  induction n generalizing p k j with
  | zero => omega
  | succ n ih =>
    cases hr : Plane.read m p with
    | some v =>
      simp only [readCells, hr]
      cases j with
      | zero => exact ⟨v, rfl, fun w hw => Option.some.inj (hr.symm.trans hw), fun hn => by simp [hr] at hn⟩
      | succ j =>
        obtain ⟨b, hb, hcell⟩ := ih (p + 1) k (j := j) (by omega)
        exact ⟨b, hb, by rwa [show p + (j + 1) = p + 1 + j by omega]⟩
    | none =>
      simp only [readCells, hr]
      cases j with
      | zero =>
        exact ⟨_, rfl, fun w hw => by simp [hr] at hw,
          fun _ => ⟨k, by omega, by omega, BitVec.setWidth_eq_extractLsb' (by decide)⟩⟩
      | succ j =>
        obtain ⟨b, hb, hcell⟩ := ih (p + 1) (k + 1) (j := j) (by omega)
        refine ⟨b, hb, ?_⟩
        rw [show p + (j + 1) = p + 1 + j by omega]
        exact hcell.mono (by omega) (by omega)

end Sys2Proof.Machine

namespace Sys2Proof.Proofs
open Sys2Proof Sys2Proof.Machine Sys2Proof.Spec

/-- Settles O42: the offset's target is the cells, and byte j of the data is what `readCells` gives for cell p + j. -/
theorem planeReadIsLittleEndian : Obligations.PlaneReadIsLittleEndian := by
  intro c p n s hcfg h0 hp a
  have ht : target s.cfg.maxPixels a n = some (.cells c p) := target_planeOffset c hcfg.2 h0 hp
  have hread : hostAccess (.read a n) s =
      .next (logEvent (.read a n) (.data (hostReadPlane c p n s).1) (hostReadPlane c p n s).2) := by
    simp only [hostAccess, hostRead, ht]
  refine ⟨fun h => ?_, fun h => ?_⟩
  · have hb := (busy_iff s).2 (Option.ne_none_iff_exists'.1 h)
    rw [hread, hostReadPlane, if_pos hb]
    rfl
  · have hb : ¬s.busy = true := Bool.eq_false_iff.1 ((not_busy_iff s).2 h)
    rw [hostReadPlane, if_neg hb] at hread
    refine ⟨_, _, hread, width_ofWord .., fun j hj => ?_⟩
    obtain ⟨b, hbyte, hcell⟩ := readCells_byte (s.mem.plane c) n.bytes p s.draws hj
    rw [byteOf_ofBytes hj hbyte]
    exact ⟨hcell.sample, hcell.draw⟩

/-- Settles O43: the offset's target is the cells, BUSY alone decides, and `writeBytes` stores byte j in cell p + j. -/
theorem planeWriteStoresItsBytes : Obligations.PlaneWriteStoresItsBytes := by
  intro c p d s hcfg h0 hp a
  have hn := d.width.bytes_cases
  obtain ⟨-, hmax⟩ := hcfg
  have ht : target s.cfg.maxPixels a d.width = some (.cells c p) := target_planeOffset c hmax h0 hp
  have hwrite : hostAccess (.write a d) s = .next (logEvent (.write a d) .ok (hostWritePlane a c p d s)) := by
    simp only [hostAccess, ht, hostWriteTarget]
  refine ⟨fun h => ?_, fun h => ?_⟩
  · have hb : ¬s.busy = true := Bool.eq_false_iff.1 ((not_busy_iff s).2 h)
    rw [hostWritePlane, if_neg hb] at hwrite
    refine ⟨_, hwrite, rfl, fun c' q => ?_⟩
    rw [logEvent_mem, Memory.read_writeBytes, BusData.bytes_length]
    split
    · exact getElem?_bytes (by omega)
    · rfl
  · have hb := (busy_iff s).2 (Option.ne_none_iff_exists'.1 h)
    have ha : a.setWidth 32 = BitVec.ofNat 32 (planeBase c + p) := by
      rw [← BitVec.ofNat_toNat, toNat_planeOffset c (by omega)]
    rw [hwrite, hostWritePlane, if_pos hb, ha]
    rfl

end Sys2Proof.Proofs
end

section
/-! PROOF. The host while BUSY (20_memory.md R71; 40_command.md R102, R107): what its accesses leave alone. The obligation
O48. -/

namespace Sys2Proof.Machine
open Sys2Proof.Spec

variable {s t u : State}

/-- What a host access while BUSY can change: IE, the flags with the recorded error, the host's fields and the draws. The
engine, its inputs, `RESULT` and the planes stay. -/
inductive EngineKept (s : State) : State → Prop where
  | mk (ie done err : Bool) (code : ErrCode) (info : Word) (pending : List HostOp) (log : List Event)
      (schedule : List Agent) (draws : Nat) :
      EngineKept s { s with
        ie := ie, done := done, err := err, errCode := code, errInfo := info
        pending := pending, log := log, schedule := schedule, draws := draws }

theorem EngineKept.refl (s : State) : EngineKept s s := .mk ..

theorem EngineKept.recordError (c : ErrCode) (i : Word) (s : State) : EngineKept s (recordError c i s) := .mk ..

theorem EngineKept.logEvent (h : EngineKept s t) (x : Access) (r : Response) : EngineKept s (logEvent x r t) := by
  obtain ⟨⟩ := h
  exact .mk ..

/-- The registers a running command uses are refused, and what is left of `CTRL` without bit 1 is IE. -/
theorem EngineKept.hostWriteReg {r : Reg} {v : Word} (hb : s.busy = true)
    (hreset : r = .ctrl → v.getLsbD 1 = false) (h : hostWriteReg r v s = .next t) : EngineKept s t := by
  have hconfig (i : Word) (u : State) : EngineKept s (writeConfig i u s) :=
    writeConfig_busy i u hb ▸ .recordError ..
  cases r with
  | ctrl =>
    obtain rfl : writeCtrl v s = t := Host.Outcome.next.inj h
    simp only [writeCtrl, hreset rfl, Bool.false_eq_true, if_false]
    exact .mk ..
  | status =>
    obtain rfl : writeStatus v s = t := Host.Outcome.next.inj h
    rw [writeStatus_eq]
    exact .mk ..
  | cmd =>
    have hsubmit : submit v s = .next (Machine.recordError .cmdWhileBusy v s) := by simp [submit, hb]
    cases hsubmit.symm.trans h
    exact .recordError ..
  | width => cases h; exact hconfig ..
  | height => cases h; exact hconfig ..
  | palK => cases h; exact hconfig ..
  | _ => cases h; exact .refl s

theorem regAt_eq_ctrl {a : Nat} (h : regAt a = .ctrl) : a = 0x008 := by
  have hnamed : ∀ a < 0x038, regAt a = .ctrl → a = 0x008 := by decide
  rcases Nat.lt_or_ge a 0x038 with ha | ha
  · exact hnamed a ha h
  · rcases Nat.lt_or_ge a 0x400 with ha' | ha'
    · rw [regAt_gap ha ha'] at h; nomatch h
    · rw [regAt_window ha'] at h
      split_ifs at h

/-- A register is the target of a 4-byte access at its own offset only (R63). -/
theorem target_eq_register {k r : Nat} {a : Offset} {n : Width} (h : target k a n = some (.register r)) :
    n = .w4 ∧ a.toNat = r := by
  unfold target at h
  repeat' split at h
  all_goals simp at h
  next hn => exact ⟨hn.1, h⟩

theorem EngineKept.hostAccess {x : Access} (hb : s.busy = true) (h : hostAccess x s = .next t)
    (hreset : ∀ v, x = .write 0x008#22 (.d4 v) → v.toNat / 2 % 2 = 0) : EngineKept s t := by
  cases x with
  | read a n =>
    obtain ⟨r, i, -, heq⟩ := hostAccess_read a n s
    cases heq.symm.trans h
    exact .mk ..
  | write a d =>
    cases ht : target s.cfg.maxPixels a d.width with
    | none =>
      cases (hostAccess_of_target_none (x := .write a d) ht).symm.trans h
      exact (EngineKept.refl s).logEvent ..
    | some g =>
      obtain ⟨u, hu, rfl⟩ := hostAccess_write_of_target ht h
      refine EngineKept.logEvent ?_ ..
      cases g with
      | register r =>
        obtain ⟨hn, rfl⟩ := target_eq_register ht
        refine EngineKept.hostWriteReg hb (fun hr => ?_) hu
        have ha : a = 0x008#22 := BitVec.eq_of_toNat_eq (regAt_eq_ctrl hr)
        cases d with
        | d4 v => rw [Bool.eq_false_iff, Ne, getLsbD_iff, BusData.word, pow_one, hreset v (by rw [ha])]; decide
        | _ => nomatch hn
      | cells c p =>
        obtain rfl : hostWritePlane a c p d s = u := Host.Outcome.next.inj hu
        rw [hostWritePlane, if_pos hb]
        exact .recordError ..

theorem EngineKept.hostStep {op : HostOp} (hb : s.busy = true) (h : hostStep op s = .next t)
    (hreset : ∀ v, op = .access (.write 0x008#22 (.d4 v)) → v.toNat / 2 % 2 = 0) : EngineKept s t := by
  cases op with
  | access x => exact EngineKept.hostAccess hb h fun v hv => hreset v (congrArg _ hv)
  | waitIdle =>
    have hkept : EngineKept { s with pending := if s.busy then .waitIdle :: s.pending else s.pending } t :=
      EngineKept.hostAccess (x := statusRead) hb h (by simp [statusRead])
    obtain ⟨⟩ := hkept
    exact .mk ..
  | waitIrq => cases h; exact .mk ..

end Sys2Proof.Machine

namespace Sys2Proof.Proofs
open Sys2Proof Sys2Proof.Machine

/-- Settles O48: while BUSY a host step that is no soft reset changes none of these fields. -/
theorem busyHostCannotDisturbEngine : Obligations.BusyHostCannotDisturbEngine := by
  intro h s t hop hstep hreset
  obtain ⟨⟩ := EngineKept.hostStep ((busy_iff s).2 (Option.ne_none_iff_exists'.1 hop)) hstep hreset
  exact ⟨rfl, rfl, rfl, rfl, rfl, rfl, rfl, rfl, rfl, rfl, rfl, rfl⟩

end Sys2Proof.Proofs
end

section
/-! PROOF. The opcode map (30_encoding.md R91 to R96): a row's mask is the opcode byte and the format's reserved bits, so
`w AND mask = match` says what `decode` checks, and an accepted word is the encoding of its command. The obligations O1,
O2, O3, O4 and O5. -/

namespace Sys2Proof

variable {w : Word} {i : Instr} {opc : Nat}

/-! ### Mask and match (R93) -/

/-- A match on two disjoint parts of a mask, where the pattern lies in the first part. -/
theorem and_or_eq_iff {lo hi p : Word} (hlo : p &&& lo = p) (hhi : p &&& hi = 0#32) (hl : (lo ||| hi) &&& lo = lo)
    (hh : (lo ||| hi) &&& hi = hi) : w &&& (lo ||| hi) = p ↔ w &&& lo = p ∧ w &&& hi = 0#32 := by
  constructor
  · intro h
    constructor
    · calc w &&& lo = w &&& (lo ||| hi) &&& lo := by rw [BitVec.and_assoc, hl]
        _ = p := by rw [h, hlo]
    · calc w &&& hi = w &&& (lo ||| hi) &&& hi := by rw [BitVec.and_assoc, hh]
        _ = 0#32 := by rw [h, hhi]
  · rintro ⟨h1, h2⟩
    rw [BitVec.and_or_distrib_left, h1, h2, BitVec.or_zero]

/-- The low byte of a word is its opcode (R91). -/
theorem and_low_byte_eq_iff (h : opc ≤ 4) : w &&& 0xFF#32 = BitVec.ofNat 32 opc ↔ fieldOpc w = opc := by
  have hlow : (w &&& 0xFF#32).toNat = w.toNat % 256 := toNat_and_low w 8 (by decide)
  have hopc : opc % 2 ^ 32 = opc := Nat.mod_eq_of_lt (by omega)
  rw [← BitVec.toNat_inj, hlow, fieldOpc_eq, BitVec.toNat_ofNat, hopc]

/-- A row of the opcode map: its mask is the opcode byte and the reserved bits of its format (R93, R94). -/
theorem and_row_mask_eq_iff (h : opc ≤ 4) :
    w &&& (0xFF#32 ||| reservedMask opc) = BitVec.ofNat 32 opc ↔
      fieldOpc w = opc ∧ w &&& reservedMask opc = 0#32 := by
  rw [← and_low_byte_eq_iff h]
  interval_cases opc <;> exact and_or_eq_iff (by decide) (by decide) (by decide) (by decide)

/-- The opcode of a command's row (R93). -/
def Instr.opcode : Instr → Nat
  | .nop => 0
  | .genPal => 1
  | .dither => 2
  | .quant _ => 3
  | .satadd _ _ => 4

theorem opcode_commandOf (h : opc ≤ 4) (w : Word) : (commandOf opc w).opcode = opc := by
  interval_cases opc <;> rfl

/-- A word is the command of an opcode exactly when it matches the opcode's row. -/
theorem match_iff_decode (h : opc ≤ 4) :
    w &&& (0xFF#32 ||| reservedMask opc) = BitVec.ofNat 32 opc ↔ decode w = .ok (commandOf opc w) := by
  rw [and_row_mask_eq_iff h, decode_ok_iff]
  constructor
  · rintro ⟨rfl, hres⟩
    exact ⟨h, hres, rfl⟩
  · rintro ⟨h4, hres, he⟩
    have hopc : opc = fieldOpc w := by rw [← opcode_commandOf h w, he, opcode_commandOf h4]
    exact ⟨hopc.symm, hopc ▸ hres⟩

/-! ### Encoding and decoding (R96) -/

/-- An accepted word is the encoding of its command: the fields of its format are all of its bits. -/
theorem encode_of_decode (h : decode w = .ok i) : encode i = w := by
  obtain ⟨h4, hres, rfl⟩ := (decode_ok_iff w i).1 h
  rw [reserved_clear_iff] at hres
  have hv := fieldV_le w
  have hopc := fieldOpc_eq w
  have hfv := fieldV_eq w
  apply BitVec.eq_of_toNat_eq
  generalize fieldOpc w = opc at h4 hres hopc
  obtain hz | rfl | rfl : opc ≤ 2 ∨ opc = 3 ∨ opc = 4 := by omega
  · have hw : w.toNat = opc := by
      rw [if_neg (by omega), if_neg (by omega)] at hres
      omega
    rw [hw]
    interval_cases opc <;> rfl
  · show (encode (.quant (fieldV w))).toNat = _
    rw [if_pos rfl] at hres
    rw [encode_quant_toNat hv]
    omega
  · show (encode (.satadd (fieldV w) (fieldD w))).toNat = _
    rw [if_neg (by decide), if_pos rfl] at hres
    rw [encode_satadd_toNat _ hv, fieldD_eq]
    split <;> omega

/-- The columns of a command's row (R93). -/
theorem Instr.mask_eq (i : Instr) : i.mask = 0xFF#32 ||| reservedMask i.opcode := by
  cases i <;> simp [Instr.mask, Instr.opcode, reservedMask]

theorem Instr.pattern_eq (i : Instr) : i.pattern = BitVec.ofNat 32 i.opcode := by cases i <;> rfl

theorem Instr.opcode_le (i : Instr) : i.opcode ≤ 4 := by cases i <;> simp [Instr.opcode]

/-- A well-formed command's word matches its row. -/
theorem encode_and_mask (h : i.wf = true) : encode i &&& i.mask = i.pattern := by
  cases i with
  | nop => exact Laws.EncodingFits.nop h
  | genPal => exact Laws.EncodingFits.genPal h
  | dither => exact Laws.EncodingFits.dither h
  | quant v => exact Laws.EncodingFits.quant v h
  | satadd v d => exact Laws.EncodingFits.satadd v d h

theorem wf_quant_iff {v : Nat} : (Instr.quant v).wf = true ↔ v ≤ 255 := by simp [Instr.wf, sampleInRange]

theorem wf_satadd_iff {v : Nat} {d : Int} : (Instr.satadd v d).wf = true ↔ v ≤ 255 ∧ -128 ≤ d ∧ d ≤ 127 := by
  simp [Instr.wf, sampleInRange, deltaInRange]

/-- The operand fields of a well-formed command's word hold its operands (R92, R96). -/
theorem commandOf_encode (h : i.wf = true) : commandOf i.opcode (encode i) = i := by
  cases i with
  | nop | genPal | dither => rfl
  | quant v =>
    have hv := wf_quant_iff.1 h
    have hfv : fieldV (encode (.quant v)) = v := by
      rw [fieldV_eq, encode_quant_toNat hv]; omega
    exact congrArg Instr.quant hfv
  | satadd v d =>
    obtain ⟨hv, hd1, hd2⟩ := wf_satadd_iff.1 h
    have hfv : fieldV (encode (.satadd v d)) = v := by
      rw [fieldV_eq, encode_satadd_toNat d hv]; omega
    have hfd : fieldD (encode (.satadd v d)) = d := by
      rw [fieldD_eq, encode_satadd_toNat d hv]; split <;> omega
    exact congrArg₂ Instr.satadd hfv hfd

theorem decode_encode (h : i.wf = true) : decode (encode i) = .ok i := by
  have hrow := encode_and_mask h
  rw [i.mask_eq, i.pattern_eq, match_iff_decode i.opcode_le, commandOf_encode h] at hrow
  exact hrow

/-- Accepted words and well-formed commands correspond one to one. -/
theorem decode_eq_ok_iff : decode w = .ok i ↔ i.wf = true ∧ encode i = w := by
  constructor
  · exact fun h => ⟨wf_of_decode h, encode_of_decode h⟩
  · rintro ⟨h, rfl⟩
    exact decode_encode h

end Sys2Proof

namespace Sys2Proof.Proofs
open Sys2Proof

/-- Settles O1: a well-formed command's word matches its row, and the row's fields hold its operands. -/
theorem decodeInvertsEncode : Obligations.DecodeInvertsEncode := fun _ h => decode_eq_ok_iff.2 ⟨h, rfl⟩

/-- Settles O2: the fields of an accepted word are in range, and with the opcode they are all of its bits. -/
theorem encodeInvertsDecode : Obligations.EncodeInvertsDecode := fun _ _ h => decode_eq_ok_iff.1 h

/-- Settles O3: the five rows are the five opcodes' matches. -/
theorem opcodeMapDecodes : Obligations.OpcodeMapDecodes := by
  intro w
  rw [← fieldV_eq, ← fieldD_eq]
  exact ⟨match_iff_decode (opc := 0) (by decide), match_iff_decode (opc := 1) (by decide),
    match_iff_decode (opc := 2) (by decide), match_iff_decode (opc := 3) (by decide),
    match_iff_decode (opc := 4) (by decide)⟩

/-- Settles O4: the reserved bits of a valid opcode are clear exactly when the word is below the bound of its format. -/
theorem rejectedWords : Obligations.RejectedWords := by
  intro w
  have hok : (∃ i, decode w = .ok i) ↔ fieldOpc w ≤ 4 ∧ w &&& reservedMask (fieldOpc w) = 0#32 := by
    simp [decode_ok_iff]
  rw [decode_illegal_iff, decode_reserved_iff, hok, Ne, reserved_clear_iff, fieldOpc_eq]
  refine ⟨Iff.rfl, ?_⟩
  split
  · omega
  · split <;> omega

/-- Settles O5: each of these words is the encoding of its command. -/
theorem wordsWrittenOutDecode : Obligations.WordsWrittenOutDecode := by
  refine ⟨?_, ?_, ?_, ?_, ?_, ?_⟩ <;> exact decode_eq_ok_iff.2 (by decide)

end Sys2Proof.Proofs
end

section
/-! PROOF. The assembler and the disassembler (30_encoding.md R96, R99): what is read from printed digits, and how a line is
cut into its mnemonic and its operands. The obligations O6 and O7. -/

namespace Sys2Proof.Machine

variable {base n v k : Nat} {c : Char} {cs ds ops : List Char}

/-! ### Digits -/

theorem digitValue_digitChar (h : k < 16) : digitValue (digitChar k) = some k := by
  interval_cases k <;> decide

/-- Reading printed digits is Horner's rule. -/
theorem readDigits_map_digitChar (hb : base ≤ 16) (ks : List Nat) (h : ∀ k ∈ ks, k < base) (n : Nat) :
    readDigits base (ks.map digitChar) n = some (ks.foldl (fun m k => m * base + k) n) := by
  induction ks generalizing n with
  | nil => rfl
  | cons k ks ih =>
    obtain ⟨hk, hks⟩ := List.forall_mem_cons.1 h
    simp only [List.map_cons, readDigits, digitValue_digitChar (hk.trans_le hb), if_pos hk, ih hks, List.foldl_cons]

/-! ### Hexadecimal words (R99) -/

/-- The eight digits that `printWord` writes after `0x`. -/
def wordDigits (w : Word) : List Nat := [7, 6, 5, 4, 3, 2, 1, 0].map fun k => (w.extractLsb' (4 * k) 4).toNat

theorem printWord_eq (w : Word) : printWord w = '0' :: 'x' :: (wordDigits w).map digitChar := rfl

theorem wordDigits_lt (w : Word) : ∀ k ∈ wordDigits w, k < 16 := by
  simp only [wordDigits, List.forall_mem_map]
  exact fun k _ => (w.extractLsb' (4 * k) 4).isLt

theorem foldl_wordDigits (w : Word) : (wordDigits w).foldl (fun m k => m * 16 + k) 0 = w.toNat := by
  have hw := w.isLt
  simp [wordDigits, BitVec.extractLsb'_toNat, Nat.shiftRight_eq_div_pow]
  omega

/-- The digits of a printed word read back as the word. -/
theorem readDigits_wordDigits (w : Word) : readDigits 16 ((wordDigits w).map digitChar) 0 = some w.toNat := by
  rw [readDigits_map_digitChar (by decide) _ (wordDigits_lt w), foldl_wordDigits]

/-! ### Decimal numbers (R96) -/

/-- The digits that `printNat` writes. -/
def natDigits (n : Nat) : List Nat :=
  (if 100 ≤ n then [n / 100] else []) ++ (if 10 ≤ n then [n / 10 % 10] else []) ++ [n % 10]

theorem printNat_eq (n : Nat) : printNat n = (natDigits n).map digitChar := by
  unfold printNat natDigits
  split <;> split <;> rfl

theorem natDigits_lt (hn : n < 1000) : ∀ k ∈ natDigits n, k < 10 := by
  unfold natDigits
  split <;> split <;> simp <;> omega

theorem foldl_natDigits (hn : n < 1000) : (natDigits n).foldl (fun m k => m * 10 + k) 0 = n := by
  unfold natDigits
  split <;> split <;> simp <;> omega

theorem printNat_ne_nil (n : Nat) : printNat n ≠ [] := by simp [printNat]

/-- A printed number is made of the digits `0` to `9`. -/
theorem mem_printNat (hn : n < 1000) (hc : c ∈ printNat n) : ∃ k < 10, c = digitChar k := by
  rw [printNat_eq, List.mem_map] at hc
  obtain ⟨k, hk, rfl⟩ := hc
  exact ⟨k, natDigits_lt hn k hk, rfl⟩

/-- A character that is no digit is not in a printed number. -/
theorem not_mem_printNat (hn : n < 1000) (hc : ∀ k < 10, c ≠ digitChar k) : c ∉ printNat n := fun h =>
  have ⟨k, hk, he⟩ := mem_printNat hn h
  hc k hk he

theorem readDecimal_of_ne_nil (h : cs ≠ []) : readDecimal cs = readDigits 10 cs 0 := by
  cases cs with
  | nil => exact absurd rfl h
  | cons c cs => rfl

theorem readDecimal_printNat (hn : n < 1000) : readDecimal (printNat n) = some n := by
  rw [readDecimal_of_ne_nil (printNat_ne_nil n), printNat_eq,
    readDigits_map_digitChar (by decide) _ (natDigits_lt hn), foldl_natDigits hn]

/-! ### Operands (R96) -/

theorem hexDigits_of_not_mem (h : 'x' ∉ cs) : hexDigits cs = none := by
  unfold hexDigits
  split
  · simp at h
  · rfl

theorem hexDigits_printNat (hn : n < 1000) : hexDigits (printNat n) = none :=
  hexDigits_of_not_mem (not_mem_printNat hn (by decide))

theorem readSample_printNat (hv : v ≤ 255) : readSample (printNat v) = some v := by
  have hn : v < 1000 := by omega
  simp only [readSample, hexDigits_printNat hn, readDecimal_printNat hn, if_pos hv]

/-- A decimal delta without a sign. -/
theorem readDelta_of_unsigned (hx : hexDigits cs = none) (hminus : '-' ∉ cs) (hv : readDecimal cs = some v)
    (hle : v ≤ 127) : readDelta cs = some (v : Int) := by
  unfold readDelta
  rw [hx]
  dsimp only
  split
  · simp at hminus
  · simp only [hv, if_pos hle]

/-- A decimal delta with a sign. -/
theorem readDelta_of_minus (hv : readDecimal cs = some v) (hle : v ≤ 128) : readDelta ('-' :: cs) = some (-(v : Int)) := by
  simp [readDelta, hexDigits, hv, hle]

theorem readDelta_printDelta {d : Int} (h1 : -128 ≤ d) (h2 : d ≤ 127) : readDelta (printDelta d) = some d := by
  unfold printDelta
  split
  · rw [readDelta_of_minus (readDecimal_printNat (by omega)) (by omega)]
    congr 1; omega
  · have hn : d.toNat < 1000 := by omega
    rw [readDelta_of_unsigned (hexDigits_printNat hn) (not_mem_printNat hn (by decide)) (readDecimal_printNat hn)
      (by omega)]
    congr 1; omega

/-! ### Blanks and the parts of a line (R96) -/

theorem trimBlanks_eq_self (hf : cs.head? ≠ some ' ') (hl : cs.getLast? ≠ some ' ') : trimBlanks cs = cs := by
  have hdrop {ds : List Char} (h : ds.head? ≠ some ' ') : ds.dropWhile (· == ' ') = ds := by
    cases ds with
    | nil => rfl
    | cons d ds => rw [List.dropWhile_cons_of_neg]; simpa using h
  rw [trimBlanks, hdrop hf, hdrop (by rwa [List.head?_reverse]), List.reverse_reverse]

theorem trimBlanks_blank_cons (cs : List Char) : trimBlanks (' ' :: cs) = trimBlanks cs := by
  rw [trimBlanks, List.dropWhile_cons_of_pos rfl, trimBlanks]

theorem head?_ne_of_not_mem (h : c ∉ cs) : cs.head? ≠ some c := fun he => h (List.mem_of_head? he)

theorem getLast?_ne_of_not_mem (h : c ∉ cs) : cs.getLast? ≠ some c := fun he => h (List.mem_of_getLast? he)

theorem trimBlanks_of_not_mem (h : ' ' ∉ cs) : trimBlanks cs = cs :=
  trimBlanks_eq_self (head?_ne_of_not_mem h) (getLast?_ne_of_not_mem h)

/-- A list is cut at the first c. -/
theorem takeWhile_append_cons (h : c ∉ cs) (ds : List Char) : (cs ++ c :: ds).takeWhile (· != c) = cs := by
  rw [List.takeWhile_append_of_pos fun x hx => bne_iff_ne.2 (ne_of_mem_of_not_mem hx h)]
  simp

theorem dropWhile_append_cons (h : c ∉ cs) (ds : List Char) : (cs ++ c :: ds).dropWhile (· != c) = c :: ds := by
  rw [List.dropWhile_append_of_pos fun x hx => bne_iff_ne.2 (ne_of_mem_of_not_mem hx h)]
  simp

theorem blank_not_mem_printNat (hn : n < 1000) : ' ' ∉ printNat n := not_mem_printNat hn (by decide)

theorem blank_not_mem_printDelta {d : Int} (h1 : -128 ≤ d) (h2 : d ≤ 127) : ' ' ∉ printDelta d := by
  unfold printDelta
  split
  · simpa using blank_not_mem_printNat (n := (-d).toNat) (by omega)
  · exact blank_not_mem_printNat (by omega)

theorem printDelta_ne_nil (d : Int) : printDelta d ≠ [] := by
  unfold printDelta
  split
  · exact List.cons_ne_nil _ _
  · exact printNat_ne_nil _

/-! ### Lines (R96) -/

theorem mnemonic_ne_nil (i : Instr) : i.mnemonic ≠ [] := by cases i <;> exact List.cons_ne_nil _ _

theorem blank_not_mem_mnemonic (i : Instr) : ' ' ∉ i.mnemonic := by cases i <;> simp [Instr.mnemonic]

theorem map_upperChar_mnemonic (i : Instr) : i.mnemonic.map upperChar = i.mnemonic := by cases i <;> rfl

/-- A line of a mnemonic, a blank and its operands is read as these two. -/
theorem parseLine_mnemonic (i : Instr) (ho : ops ≠ []) (hf : ops.head? ≠ some ' ') (hl : ops.getLast? ≠ some ' ') :
    parseLine (i.mnemonic ++ ' ' :: ops) = readCommand i.mnemonic ops := by
  have hm := blank_not_mem_mnemonic i
  have htrim : trimBlanks (i.mnemonic ++ ' ' :: ops) = i.mnemonic ++ ' ' :: ops := by
    apply trimBlanks_eq_self
    · rw [List.head?_append_of_ne_nil _ (mnemonic_ne_nil i)]
      exact head?_ne_of_not_mem hm
    · rwa [List.getLast?_append_of_ne_nil _ (List.cons_ne_nil _ _), List.getLast?_cons_of_ne_nil ho]
  rw [parseLine, htrim, takeWhile_append_cons hm, dropWhile_append_cons hm, trimBlanks_blank_cons,
    trimBlanks_eq_self hf hl, map_upperChar_mnemonic]

theorem readCommand_quant (ops : List Char) :
    readCommand (Instr.quant v).mnemonic ops = (readSample ops).map .quant := by
  simp [readCommand, Instr.mnemonic]

theorem readCommand_satadd {d : Int} {first second : List Char} (hcomma : ',' ∉ first) (hb1 : ' ' ∉ first)
    (hb2 : ' ' ∉ second) (hv : readSample first = some v) (hd : readDelta second = some d) :
    readCommand (Instr.satadd v d).mnemonic (first ++ ',' :: ' ' :: second) = some (.satadd v d) := by
  simp [readCommand, Instr.mnemonic, takeWhile_append_cons hcomma, dropWhile_append_cons hcomma,
    trimBlanks_of_not_mem hb1, trimBlanks_blank_cons, trimBlanks_of_not_mem hb2, hv, hd]

theorem parseLine_printInstr {i : Instr} (h : i.wf = true) : parseLine (printInstr i) = some i := by
  cases i with
  | nop | genPal | dither => decide
  | quant v =>
    have hv := wf_quant_iff.1 h
    have hb := blank_not_mem_printNat (n := v) (by omega)
    calc parseLine ((Instr.quant v).mnemonic ++ ' ' :: printNat v)
        = readCommand (Instr.quant v).mnemonic (printNat v) :=
          parseLine_mnemonic _ (printNat_ne_nil v) (head?_ne_of_not_mem hb) (getLast?_ne_of_not_mem hb)
      _ = (readSample (printNat v)).map .quant := readCommand_quant _
      _ = some (.quant v) := by rw [readSample_printNat hv, Option.map_some]
  | satadd v d =>
    obtain ⟨hv, h1, h2⟩ := wf_satadd_iff.1 h
    have hn : v < 1000 := by omega
    have hb1 := blank_not_mem_printNat hn
    have hb2 := blank_not_mem_printDelta h1 h2
    have hprint : printInstr (.satadd v d) =
        (Instr.satadd v d).mnemonic ++ ' ' :: (printNat v ++ ',' :: ' ' :: printDelta d) := by
      simp [printInstr]
    have hfirst : (printNat v ++ ',' :: ' ' :: printDelta d).head? ≠ some ' ' := by
      rw [List.head?_append_of_ne_nil _ (printNat_ne_nil v)]
      exact head?_ne_of_not_mem hb1
    have hlast : (printNat v ++ ',' :: ' ' :: printDelta d).getLast? ≠ some ' ' := by
      simpa [List.getLast?_cons_of_ne_nil, printDelta_ne_nil] using getLast?_ne_of_not_mem hb2
    rw [hprint, parseLine_mnemonic _ (by simp) hfirst hlast]
    exact readCommand_satadd (not_mem_printNat hn (by decide)) hb1 hb2 (readSample_printNat hv)
      (readDelta_printDelta h1 h2)

end Sys2Proof.Machine

namespace Sys2Proof.Proofs
open Sys2Proof Sys2Proof.Machine

/-- Settles O6: the line is read back as its command. -/
theorem assembledLineGivesItsWord : Obligations.AssembledLineGivesItsWord := by
  intro i h
  rw [assembleLine, parseLine_printInstr h, Option.map_some]

/-- Settles O7: the three outputs are the three outcomes of `decode`, and the digits after `0x` are those of the word. -/
theorem disassemblyShowsRejection : Obligations.DisassemblyShowsRejection := by
  intro w
  have hlen : ((wordDigits w).map digitChar).length = 8 := rfl
  refine ⟨fun i h => ?_, fun h => ⟨_, ?_, hlen, readDigits_wordDigits w⟩, fun h => ⟨_, ?_, hlen, readDigits_wordDigits w⟩⟩
  · rw [disassemble, h]
  · rw [disassemble, h, printWord_eq]
    rfl
  · rw [disassemble, h, printWord_eq]
    rfl

end Sys2Proof.Proofs
end

section
/-! PROOF. The lines of a host program and the turns of its poll loop (30_encoding.md R97, R98): the offset of a symbol, the
accesses of a line, and what `WAIT_IDLE` reads. The obligations O12 and O14. -/

namespace Sys2Proof.Machine
open Sys2Proof.Spec

variable {r : Reg} {a p : Nat} {c : Channel} {i : Instr}

/-! ### Symbols (R97) -/

/-- A register's name stands for the offset at which the register is (R22). -/
theorem registerAt_of_offset (h : r.offset = some a) : RegisterAt a r := by
  cases r with
  | pal i =>
    obtain ⟨hi, rfl⟩ : i < 256 ∧ 0x400 + 4 * i = a := by simpa [Reg.offset] using h
    exact registerAt_pal hi
  | qlut v =>
    obtain ⟨hv, rfl⟩ : v < 256 ∧ 0x800 + 4 * v = a := by simpa [Reg.offset] using h
    exact registerAt_qlut hv
  | reserved => cases h
  | _ => cases h; decide

theorem register_offset (h : r.offset = some a) : (Symbol.register r).offset = some (BitVec.ofNat 22 a) := by
  rw [Symbol.offset, h, Option.map_some]

theorem cell_offset (c : Channel) (hp : p < 0x100000) :
    (Symbol.cell c p).offset = some (BitVec.ofNat 22 (planeBase c + p)) := if_pos hp

/-! ### Lines (R97, R98) -/

theorem commandWrite_of_wf (h : i.wf = true) : commandWrite i = some (.access (writeCmd (encode i))) := if_pos h

theorem commandWrite_of_not_wf (h : i.wf = false) : commandWrite i = none := if_neg (Bool.eq_false_iff.1 h)

/-- The one-byte write of a cell (R66, R98). -/
def cellWrite (c : Channel) (p : Nat) (v : Byte) : HostOp :=
  .access (.write (BitVec.ofNat 22 (planeBase c + p)) (.d1 v))

/-- The bytes of a `LOAD` that ends in its plane's window are written one after the other, to rising cells (R98). -/
theorem loadBytes_eq (c : Channel) (vs : List Byte) (h : p + vs.length ≤ 0x100000) :
    loadBytes c p vs = some (vs.mapIdx fun k v => cellWrite c (p + k) v) := by
  induction vs generalizing p with
  | nil => rfl
  | cons v vs ih =>
    rw [List.length_cons] at h
    have hshift (k : Nat) : p + 1 + k = p + (k + 1) := by omega
    rw [loadBytes, cell_offset c (by omega), ih (by omega), List.mapIdx_cons]
    simp only [hshift, Nat.add_zero, cellWrite]

end Sys2Proof.Machine

namespace Sys2Proof.Proofs
open Sys2Proof Sys2Proof.Machine Sys2Proof.Spec

/-- Settles O12: a turn of the loop is a read of `STATUS`, which is never a draw. -/
theorem pollLoopWaitsForIdle : Obligations.PollLoopWaitsForIdle := fun _ =>
  hostAccess_read_exact (a := 0x00C) (r := .status) (by decide) (.inl rfl) rfl

/-- Settles O14: each line's accesses follow from the offset of its symbol or from the word of its command. -/
theorem hostLinesExpand : Obligations.HostLinesExpand := by
  refine ⟨?registers, ?commands, ?refused, ?loadW, ?load, ?expect, ?access, fun _ => rfl, fun _ _ => register_offset,
    fun c _ => cell_offset c, rfl⟩
  case registers =>
    intro r a h
    obtain ⟨hlt, h4, hr⟩ := registerAt_of_offset h
    exact ⟨hr, h4, hlt⟩
  case commands =>
    intro i h
    simp [HostLine.expand, commandWrite_of_wf h]
  case refused =>
    intro i h
    simp [HostLine.expand, commandWrite_of_not_wf h]
  case loadW =>
    intro c p w hp
    simp [HostLine.expand, cell_offset c hp]
  case load =>
    intro c p vs h
    refine ⟨_, loadBytes_eq c vs h, List.length_mapIdx, fun k v hv => ?_⟩
    rw [List.getElem?_mapIdx, hv]
    rfl
  case expect =>
    intro r a v h
    simp [HostLine.expand, register_offset h]
  case access =>
    intro a o h
    simp [HostLine.expand, h]

end Sys2Proof.Proofs
end

section
/-! PROOF. Submission and acceptance of a command (40_command.md R100 to R102; 60_exceptions.md R209): `submit` answers by the
first check that fails, and an accepted word is what the engine runs. The obligations O11, O24 and O25. -/

namespace Sys2Proof.Machine
open Sys2Proof.Spec

variable {s t : State} {w : Word} {i : Instr}

/-! ### The checks of a submission, in their order (R100, R209) -/

theorem submit_busy (hb : s.busy = true) : submit w s = .next (recordError .cmdWhileBusy w s) := if_pos hb

theorem submit_illegal (hb : s.busy = false) (hw : decode w = .illegalOpcode) :
    submit w s = .next (recordError .illegalOpcode w s) := by
  simp [submit, hb, hw]

theorem submit_reserved (hb : s.busy = false) (hw : decode w = .reservedBits) :
    submit w s = .next (recordError .reservedBits w s) := by
  simp [submit, hb, hw]

theorem submit_dimRange (hb : s.busy = false) (hw : decode w = .ok .dither)
    (hf : s.cfg.maxPixels < requestedFrame s) : submit w s = .next (recordError .dimRange w s) := by
  simp [submit, hb, hw, hf]

theorem submit_dither (hb : s.busy = false) (hw : decode w = .ok .dither) (hf : requestedFrame s ≤ s.cfg.maxPixels)
    (hv : frameWritten s.mem (requestedFrame s)) : submit w s = .next (accept w s) := by
  simp [submit, hb, hw, Nat.not_lt.2 hf, (Memory.firstUnwritten_none _ _).2 hv]

theorem submit_other (hb : s.busy = false) (hw : decode w = .ok i) (hi : i ≠ .dither) :
    submit w s = .next (accept w s) := by
  simp [submit, hb, hw, hi]

/-- A submission is a write to `CMD`, and its response is logged whatever the checks say (R100, R102). -/
theorem hostAccess_writeCmd (h : submit w s = .next t) :
    hostAccess (writeCmd w) s = .next { t with log := logged (writeCmd w) .ok t } :=
  hostAccess_write_reg (a := 0x018) (r := .cmd) (by decide) h

/-! ### Acceptance (R101) -/

/-- A word that is no DITHER enters `OP`, and the latches and the cursor stay. -/
theorem accept_of_not_dither (hw : isDitherWord w = false) (s : State) :
    accept w s = { s with op := some w, done := false } := by
  simp [accept, hw]

/-! ### A word placed in `OP` (R101, R106) -/

theorem tableWord_toNat (w : Word) : tableWord 32 w.toNat = w := by
  rw [tableWord, Nat.mod_eq_of_lt w.isLt, BitVec.ofNat_toNat, BitVec.setWidth_eq]

theorem decodeTableWord_of_decode (h : decode w = .ok i) : decodeTableWord 32 w.toNat = some i := by
  simp [decodeTableWord, tableWord_toNat, h]

/-- The engine moves next on a placed word, and what the schedule held before is left. -/
theorem step_withFetchWord (s : State) (w : Word) : step (s.withFetchWord 32 w.toNat) = engineStep w (accept w s) := by
  rw [State.withFetchWord, tableWord_toNat]
  cases hp : s.pending with
  | nil => exact step_engine_alone rfl hp
  | cons h rest => exact step_schedule_engine rfl hp rfl

end Sys2Proof.Machine

namespace Sys2Proof.Proofs
open Sys2Proof Sys2Proof.Machine Sys2Proof.Spec

/-- Settles O11: `OP` holds the command's own word, and the schedule gives the engine the next move. -/
theorem placedCommandRunsNext : Obligations.PlacedCommandRunsNext := by
  intro i s h
  have hdec := decode_encode h
  exact ⟨decodeTableWord_of_decode hdec, by rw [step_withFetchWord, engineStep_of_decode hdec]⟩

/-- Settles O24: in each clause the checks before its own pass, and the rejection is logged as the access it is. -/
theorem submissionRejectionOrder : Obligations.SubmissionRejectionOrder := by
  intro w s rejected
  have hidle := (not_busy_iff s).2
  refine ⟨fun h => ?busy, fun h hopc => ?illegal, fun h hres => ?reserved, fun h hw hf => ?dimRange⟩
  case busy => exact hostAccess_writeCmd (submit_busy ((busy_iff s).2 (Option.ne_none_iff_exists'.1 h)))
  case illegal =>
    have hdec : decode w = .illegalOpcode := by rwa [decode_illegal_iff, fieldOpc_eq]
    exact hostAccess_writeCmd (submit_illegal (hidle h) hdec)
  case reserved =>
    have hdec : decode w = .reservedBits := by
      rw [decode_reserved_iff, Ne, reserved_clear_iff, fieldOpc_eq]
      split_ifs <;> omega
    exact hostAccess_writeCmd (submit_reserved (hidle h) hdec)
  case dimRange => exact hostAccess_writeCmd (submit_dimRange (hidle h) (hw ▸ rfl) hf)

/-- Settles O25: no check stands against the command, so its word is accepted. -/
theorem acceptanceStartsTheCommand : Obligations.AcceptanceStartsTheCommand := by
  intro i s hwf h
  have hidle := (not_busy_iff s).2 h
  have hdec := decode_encode hwf
  refine ⟨fun hne => ?other, fun hd hf hv => ?dither⟩
  case other =>
    have hnd : isDitherWord (encode i) = false := Bool.eq_false_iff.2 (mt (isDitherWord_iff hdec).1 hne)
    rw [hostAccess_writeCmd (submit_other hidle hdec hne), accept_of_not_dither hnd]
    rfl
  case dither =>
    subst hd
    exact hostAccess_writeCmd (submit_dither hidle hdec hf hv)

end Sys2Proof.Proofs
end

section
/-! PROOF. The engine's steps (40_command.md R103 to R105): what each command leaves alone, and how each step brings the
running command nearer to its completion. The obligations O16, O22, O54 and O55. -/

namespace Sys2Proof.Machine

variable {s t : State} {w : Word} {i : Instr}

/-! ### The frame of a pixel step (R181) -/

theorem pixelMemory_frame {n lw lh x y : Nat} {mem mem' : Memory} (hx : x < lw) (hy : y < lh)
    (hm : pixelMemory n lw lh x y mem = .ok mem') (c : Channel) {q : Nat} (hq : lw * lh ≤ q) :
    mem'.read c q = mem.read c q :=
  pixelPlane_frame hx hy (pixelMemory_ok hm c) q hq

/-! ### Pixels left (R171, R172) -/

/-- The cell the cursor stands at, counted in raster order. -/
abbrev cursorCell (s : State) : Nat := cellIndex s.lw.toNat s.px.toNat s.py.toNat

/-- With a legal cursor the pixels left are the frame's cells from the cursor's on, and none past its last row. -/
theorem pixelsLeft_eq (h : cursorLegal s.lw.toNat s.lh.toNat s.px.toNat s.py.toNat) :
    pixelsLeft s = latchedFrame s - cursorCell s := by
  unfold pixelsLeft
  split
  · rfl
  · next hout =>
    unfold latchedFrame cursorCell cellIndex
    obtain hin | ⟨hx, hy⟩ | ⟨-, -, hlw⟩ := h
    · exact absurd hin hout
    · rw [hx, hy, Nat.mul_comm]; omega
    · rw [hlw]; omega

theorem pixelsLeft_le_latchedFrame (s : State) : pixelsLeft s ≤ latchedFrame s := by
  unfold pixelsLeft
  split <;> omega

/-- The cursor moves on by one cell, from the end of a row to the start of the next. -/
theorem cursorCell_advance (hx : s.px.toNat < s.lw.toNat) (hy : s.py.toNat < s.lh.toNat) :
    cursorCell (advanceCursor s) = cursorCell s + 1 := by
  obtain ⟨hpx, hpy⟩ := advanceCursor_toNat hy
  rw [cursorCell, hpx, hpy, advanceCursor_lw]
  split
  · exact cellIndex_right ..
  · rw [cellIndex_below, cursorCell]
    unfold cellIndex
    omega

theorem pixelsLeft_advance (hx : s.px.toNat < s.lw.toNat) (hy : s.py.toNat < s.lh.toNat) :
    pixelsLeft (advanceCursor s) + 1 = pixelsLeft s := by
  have hcell : cursorCell s < latchedFrame s := cellIndex_lt hx hy
  have hlegal : cursorLegal (advanceCursor s).lw.toNat (advanceCursor s).lh.toNat
      (advanceCursor s).px.toNat (advanceCursor s).py.toNat := by
    simpa only [advanceCursor_lw, advanceCursor_lh] using cursorLegal_advance hx hy
  have hframe : latchedFrame (advanceCursor s) = latchedFrame s := by simp [latchedFrame]
  rw [pixelsLeft_eq hlegal, pixelsLeft_eq (.inl ⟨hx, hy⟩), hframe, cursorCell_advance hx hy]
  omega

/-! ### Progress (R104) -/

/-- The command running in `OP` has a next engine step: a DITHER's pixel step while a pixel is left, else a completion. -/
theorem exec_progress (hi : Inv s) (hop : s.op = some w) (hdec : decode w = .ok i) :
    ∃ t, exec i s = .next t ∧
      ((t.op = none ∧ t.done = true) ∨
        (i = .dither ∧ t.op = some w ∧ t.done = false ∧ pixelsLeft t + 1 = pixelsLeft s)) := by
  cases i with
  | dither =>
    have hd : s.dithering = true := dithering_of_op hop ▸ (isDitherWord_iff hdec).2 rfl
    by_cases hleft : s.px.toNat < s.lw.toNat ∧ s.py.toNat < s.lh.toNat
    · obtain ⟨hx, hy⟩ := hleft
      obtain ⟨mem', -, hpixel⟩ := execDither_pixel hx hy (hi.frameHeld hd)
      have hdone : s.done = false := hi.doneIdle (busy_of_dithering hd)
      exact ⟨_, hpixel, .inr ⟨rfl, by simpa using hop, by simpa using hdone,
        pixelsLeft_advance (s := { s with mem := mem' }) hx hy⟩⟩
    · exact ⟨_, execDither_complete hleft, .inl ⟨rfl, rfl⟩⟩
  | _ => exact ⟨_, rfl, .inl ⟨rfl, rfl⟩⟩

theorem EngineEffect.pending_eq (he : EngineEffect s t) : t.pending = s.pending := by
  cases he <;> simp

/-- With the host waiting a step of the machine is such an engine step, and the host still waits. -/
theorem step_progress (hi : Inv s) (hop : s.op = some w) (hp : s.pending = []) :
    ∃ t, step s = .next t ∧ t.pending = [] ∧
      ((t.op = none ∧ t.done = true) ∨ (t.op = some w ∧ pixelsLeft t + 1 = pixelsLeft s)) := by
  obtain ⟨i, hdec⟩ := hi.opCommand w hop
  obtain ⟨t, hexec, hprogress⟩ := exec_progress hi hop hdec
  rw [← engineStep_of_decode hdec] at hexec
  refine ⟨t, (step_engine_alone hop hp).trans hexec, (engineStep_effect hop hexec).pending_eq.trans hp, ?_⟩
  exact hprogress.imp_right fun ⟨_, hopt, _, hleft⟩ => ⟨hopt, hleft⟩

/-- One step for each pixel left and one for the completion are enough. -/
theorem run_completes {s : State} (hi : Inv s) (hop : s.op = some w) (hp : s.pending = []) :
    ∃ k t, k ≤ pixelsLeft s + 1 ∧ Host.Core.run Sys2Proof.core k s = .next t ∧ t.op = none ∧ t.done = true := by
  obtain ⟨t, hstep, hpt, hdone | ⟨hopt, hleft⟩⟩ := step_progress hi hop hp
  · exact ⟨1, t, by omega, core_run_next hstep, hdone⟩
  · obtain ⟨k, u, hk, hrun, hdone⟩ := run_completes (hi.step hstep) hopt hpt
    exact ⟨k + 1, u, by omega, (core_run_next hstep).trans hrun, hdone⟩
termination_by pixelsLeft s
decreasing_by omega

end Sys2Proof.Machine

namespace Sys2Proof.Proofs
open Sys2Proof Sys2Proof.Machine

/-- Settles O16: NOP's one engine step is `complete`. -/
theorem nopCompletes : Obligations.NopCompletes := fun _ => rfl

/-- Settles O22: four commands write one register at most before they complete, and a DITHER's pixel step writes cells of
its frame only. -/
theorem commandsLeaveTheRestAlone : Obligations.CommandsLeaveTheRestAlone := by
  intro i s t h
  cases i with
  | dither =>
    obtain ⟨hx, hy, mem', hm, rfl⟩ | ⟨-, rfl⟩ := execDither_cases h
    · simpa using fun c p hp => pixelMemory_frame hx hy hm c hp
    · simp
  | _ => cases h; simp

/-- Settles O54: a DITHER with a pixel left moves its cursor on by one cell, and every other step is a completion. -/
theorem engineStepsMakeProgress : Obligations.EngineStepsMakeProgress := fun _ _ _ => exec_progress

/-- Settles O55: the frame has LW × LH pixels, so no more are left. -/
theorem acceptedCommandCompletes : Obligations.AcceptedCommandCompletes := by
  intro s w hi hop hp
  obtain ⟨k, t, hk, hrun⟩ := run_completes hi hop hp
  exact ⟨k, t, hk.trans (Nat.succ_le_succ (pixelsLeft_le_latchedFrame s)), hrun⟩

end Sys2Proof.Proofs
end

section
/-! PROOF. The palette and the quantizer (41_palette_quantizer.md R120 to R131): what distinguishes small palettes from large
ones, the quantizer as the smallest closest level, and its decision thresholds. The obligations O17, O18 and O30 to O34. -/

namespace Sys2Proof.Machine
open Sys2Proof.Spec

variable {n i j p v w a b : Nat}

/-! ### Entries (R121 to R124) -/

theorem palEntry_mem_palSeq (hi : i < n) : palEntry n i ∈ palSeq n := mem_palSeq.2 ⟨i, hi, rfl⟩

theorem palSeq_getElem? (hi : i < n) : (palSeq n)[i]? = some (palEntry n i) := by simp [palSeq, hi]

/-- With at most 255 steps to cover 0..255 no step is empty (R123). -/
theorem palEntry_lt (hn : n ≤ 256) (hij : i < j) (hj : j < n) : palEntry n i < palEntry n j := by
  unfold palEntry
  calc i * 255 / (n - 1) < i * 255 / (n - 1) + 1 := Nat.lt_succ_self _
    _ = (i * 255 + (n - 1)) / (n - 1) := (Nat.add_div_right _ (by omega)).symm
    _ ≤ j * 255 / (n - 1) := Nat.div_le_div_right (by omega)

/-- With at least 255 steps to cover 0..255 no step skips a value: v is the entry at index ⌈v (n − 1) / 255⌉ (R124). -/
theorem mem_palSeq_of_le (hn : 256 ≤ n) (hv : v ≤ 255) : v ∈ palSeq n := by
  have hlast : v * (n - 1) ≤ 255 * (n - 1) := Nat.mul_le_mul_right _ hv
  refine mem_palSeq.2 ⟨(v * (n - 1) + 254) / 255, by omega, Nat.div_eq_of_lt_le (by omega) ?_⟩
  rw [Nat.succ_mul]
  omega

/-- Every entry lies on one side of the gap between two neighbours. -/
theorem le_or_le_of_mem_palSeq (hp : p ∈ palSeq n) (i : Nat) : p ≤ palEntry n i ∨ palEntry n (i + 1) ≤ p := by
  obtain ⟨j, -, rfl⟩ := mem_palSeq.1 hp
  exact (Nat.lt_or_ge i j).symm.imp (palEntry_mono n) (palEntry_mono n)

/-- A sample below the last entry stands in one of the gaps. -/
theorem exists_gap (hn : 2 ≤ n) (hv : v < 255) : ∃ i, i + 1 < n ∧ palEntry n i ≤ v ∧ v < palEntry n (i + 1) := by
  have hbelow := palEntry_levelIndex_le hn v
  have hidx : levelIndex n v ≠ n - 1 := by
    intro h
    rw [h, palEntry_last hn] at hbelow
    omega
  have hle := levelIndex_le n v
  exact ⟨levelIndex n v, by omega, hbelow, lt_palEntry_of_levelIndex_lt hn (Nat.lt_succ_self _) (by omega)⟩

/-- What `PAL[i]` shows is a sample (R42). -/
theorem palSlot_le (n i : Nat) : palSlot n i ≤ 255 := by
  unfold palSlot
  split
  · exact palEntry_le (by omega)
  · omega

/-! ### The smallest closest level (R127) -/

theorem quantize_mem (hn : n ≠ 0) (v : Nat) : quantize n v ∈ palSeq n := by
  rw [quantize_eq_nearest]
  exact nearest_mem _ fun h => hn (by simpa [h] using (palSeq_length n).symm)

theorem distance_quantize_le (hp : p ∈ palSeq n) (v : Nat) : distance v (quantize n v) ≤ distance v p := by
  rw [quantize_eq_nearest]
  exact nearest_closest _ hp

theorem quantize_le_of_distance_le (hp : p ∈ palSeq n) (hd : distance v p ≤ distance v (quantize n v)) :
    quantize n v ≤ p := by
  rw [quantize_eq_nearest] at hd ⊢
  exact nearest_least _ (palSeq_sorted n) hp hd

/-- Among the levels a at most v and b above it the closer one wins, and a tie goes to a (R127). -/
theorem quantize_of_neighbours (ha : a ∈ palSeq n) (hav : a ≤ v) (hmax : ∀ p ∈ palSeq n, p ≤ v → p ≤ a)
    (hb : b ∈ palSeq n) (hvb : v < b) (hmin : ∀ p ∈ palSeq n, v < p → b ≤ p) :
    quantize n v = if v ≤ (a + b) / 2 then a else b := by
  have hq : quantize n v ∈ palSeq n := quantize_mem (by rintro rfl; simp [palSeq] at ha) v
  have hside : quantize n v ≤ a ∨ b ≤ quantize n v := (Nat.lt_or_ge v (quantize n v)).symm.imp (hmax _ hq) (hmin _ hq)
  have hda := distance_quantize_le ha v
  have hdb := distance_quantize_le hb v
  have hla := quantize_le_of_distance_le (v := v) ha
  unfold distance at hda hdb hla
  split <;> omega

/-- A sample above every level goes to the largest (R127). -/
theorem quantize_of_le_all (ha : a ∈ palSeq n) (hmax : ∀ p ∈ palSeq n, p ≤ a) (hav : a ≤ v) : quantize n v = a := by
  have hle : quantize n v ≤ a := hmax _ (quantize_mem (by rintro rfl; simp [palSeq] at ha) v)
  have hd := distance_quantize_le ha v
  unfold distance at hd
  omega

/-! ### Properties of the quantizer (R128) -/

theorem quantize_of_mem (hp : p ∈ palSeq n) : quantize n p = p := by
  have hd := distance_quantize_le hp p
  unfold distance at hd
  omega

/-- If Q(w) < Q(v) for v ≤ w, then Q(w) is no closer to v and Q(v) no closer to w, so both are as close to both: a tie, in
which v goes to the smaller. -/
theorem quantize_mono (n : Nat) (h : v ≤ w) : quantize n v ≤ quantize n w := by
  rcases Nat.eq_zero_or_pos n with rfl | hn
  · rfl
  have hv := quantize_mem hn.ne' v
  have hw := quantize_mem hn.ne' w
  have hdv := distance_quantize_le hw v
  have hdw := distance_quantize_le hv w
  have hlv := quantize_le_of_distance_le (v := v) hw
  unfold distance at hdv hdw hlv
  omega

theorem quantize_eq_self (hn : 256 ≤ n) (hv : v ≤ 255) : quantize n v = v :=
  quantize_of_mem (mem_palSeq_of_le hn hv)

/-- No sample is farther from its level than half of the largest gap (R128 (e)). -/
theorem distance_quantize_le_half_gap {g : Nat} (hn : 2 ≤ n)
    (hg : ∀ i, i + 1 < n → palEntry n (i + 1) - palEntry n i ≤ g) (hv : v ≤ 255) :
    distance v (quantize n v) ≤ g / 2 := by
  rcases Nat.lt_or_eq_of_le hv with hlt | rfl
  · obtain ⟨i, hi, hbelow, habove⟩ := exists_gap hn hlt
    have hgap := hg i hi
    have hda := distance_quantize_le (palEntry_mem_palSeq (Nat.lt_of_succ_lt hi)) v
    have hdb := distance_quantize_le (palEntry_mem_palSeq hi) v
    unfold distance at *
    omega
  · rw [quantize_of_mem (mem_palSeq.2 ⟨n - 1, by omega, palEntry_last hn⟩)]
    simp [distance]

/-- The sample in the middle of a gap is half of the gap away from its level (R128 (e)). -/
theorem distance_quantize_middle (hi : i + 1 < n) (hv : v = palEntry n i + (palEntry n (i + 1) - palEntry n i) / 2) :
    distance v (quantize n v) = (palEntry n (i + 1) - palEntry n i) / 2 := by
  have hda := distance_quantize_le (palEntry_mem_palSeq (Nat.lt_of_succ_lt hi)) v
  have hside := le_or_le_of_mem_palSeq (quantize_mem (n := n) (by omega) v) i
  have hmono := palEntry_mono n (Nat.le_add_right i 1)
  unfold distance at *
  omega

/-! ### Decision thresholds (R127, R131) -/

/-- The level that rows of (threshold, level) give to v: that of the last row whose threshold is not above v. -/
def levelByRows (rows : List (Nat × Nat)) (v : Nat) : Nat :=
  rows.foldl (fun best row => if row.1 ≤ v then row.2 else best) 0

/-- The rows of the first k + 1 entries of the palette of size n: an entry takes over past the midpoint between its
predecessor and itself. -/
def decisionRows (n k : Nat) : List (Nat × Nat) :=
  (0, 0) :: (List.range k).map fun i => ((palEntry n i + palEntry n (i + 1)) / 2 + 1, palEntry n (i + 1))

theorem nearest_append_singleton {ps : List Nat} (hps : ps ≠ []) (q : Nat) (v : Int) :
    nearest (ps ++ [q]) v = if distance v q < distance v (nearest ps v) then q else nearest ps v := by
  obtain ⟨p, rest, rfl⟩ := List.exists_cons_of_ne_nil hps
  exact List.foldl_append

theorem levelByRows_append_singleton (rows : List (Nat × Nat)) (t q v : Nat) :
    levelByRows (rows ++ [(t, q)]) v = if t ≤ v then q else levelByRows rows v := by
  simp [levelByRows]

/-- The scan of the first k + 1 entries is decided by their rows. -/
theorem nearest_eq_levelByRows (n k v : Nat) :
    nearest ((List.range (k + 1)).map (palEntry n)) (v : Int) = levelByRows (decisionRows n k) v := by
  induction k with
  | zero => simp [nearest, levelByRows, decisionRows]
  | succ k ih =>
    have hne : (List.range (k + 1)).map (palEntry n) ≠ [] := by simp
    have hrows : decisionRows n (k + 1) =
        decisionRows n k ++ [((palEntry n k + palEntry n (k + 1)) / 2 + 1, palEntry n (k + 1))] := by
      simp [decisionRows, List.range_succ]
    have hbest : nearest ((List.range (k + 1)).map (palEntry n)) v ≤ palEntry n k := by
      obtain ⟨i, hi, heq⟩ := List.mem_map.1 (nearest_mem (v : Int) hne)
      rw [← heq]
      exact palEntry_mono n (Nat.le_of_lt_succ (List.mem_range.1 hi))
    have hclose : distance v (nearest ((List.range (k + 1)).map (palEntry n)) v) ≤ distance v (palEntry n k) :=
      nearest_closest _ (List.mem_map.2 ⟨k, by simp, rfl⟩)
    have hmono := palEntry_mono n (Nat.le_add_right k 1)
    rw [List.range_succ, List.map_append, List.map_singleton, nearest_append_singleton hne, hrows,
      levelByRows_append_singleton, ← ih]
    unfold distance at *
    split <;> split <;> omega

theorem quantize_eq_levelByRows (n v : Nat) : quantize (n + 1) v = levelByRows (decisionRows (n + 1) n) v := by
  rw [quantize_eq_nearest]
  exact nearest_eq_levelByRows (n + 1) n v

/-! ### GEN_PAL, QUANT and their read-back (R120, R126, R129, R130) -/

theorem effectiveSize_eq_max (k : Nat) : effectiveSize k = max k 2 := by
  unfold effectiveSize
  split <;> omega

/-- N(K) fits N's 32 bits. -/
theorem toNat_effectiveSize (k : Word) : (BitVec.ofNat 32 (effectiveSize k.toNat)).toNat = max k.toNat 2 := by
  have hk := k.isLt
  rw [effectiveSize_eq_max, BitVec.toNat_ofNat]
  omega

theorem palValid_iff {s : State} : s.palValid = true ↔ s.palN.toNat ≠ 0 := by
  rw [← Bool.toNat_eq_one, palValid_toNat]
  split <;> omega

theorem readReg_pal_toNat (i : Nat) (s : State) : (readReg (.pal i) s).toNat = palSlot s.palN.toNat i := by
  have := palSlot_le s.palN.toNat i
  rw [readReg, BitVec.toNat_ofNat]
  omega

theorem readReg_qlut_toNat (v : Nat) (s : State) : (readReg (.qlut v) s).toNat = level s.palN.toNat v := by
  have := quantize_le s.palN.toNat v
  rw [level, ← quantize_eq_nearest, readReg, BitVec.toNat_ofNat]
  omega

end Sys2Proof.Machine

namespace Sys2Proof.Proofs
open Sys2Proof Sys2Proof.Machine Sys2Proof.Spec

/-- Settles O17: the step writes N alone, and what is read back is a function of N. -/
theorem genPalBuildsPalette : Obligations.GenPalBuildsPalette := by
  intro s
  have hN := toNat_effectiveSize s.palK
  refine ⟨complete { s with palN := .ofNat 32 (effectiveSize s.palK.toNat) }, rfl, rfl, hN, ?valid, hN,
    fun i hi => ?pal, fun v _ => ?qlut⟩
  case valid => rw [palValid_iff, complete_palN, hN]; omega
  case pal =>
    rw [readReg_pal_toNat, complete_palN, hN, palSlot]
    simp only [lt_min_iff, hi, and_true, palEntry]
  case qlut => rw [readReg_qlut_toNat, complete_palN, hN]

/-- Settles O18: the machine's form of the quantizer is the scan, and its answer fits `RESULT`. -/
theorem quantWritesNearestLevel : Obligations.QuantWritesNearestLevel := by
  intro v s hv
  refine ⟨complete { s with result := u8 (quantize s.palN.toNat v) }, rfl, rfl, ?scan, fun h => ?empty, fun h => ?large⟩
  case scan => rw [complete_result, u8_quantize_toNat, quantize_eq_nearest, level]
  case empty => rw [complete_result, h]; rfl
  case large => rw [complete_result, u8_quantize_toNat, quantize_eq_self h hv]

/-- Settles O30: the endpoints are exact divisions, and up to 256 entries every step is at least 1. -/
theorem paletteEndpointsAndIncrease : Obligations.PaletteEndpointsAndIncrease := by
  intro n hn
  refine ⟨palSeq_length n, ?first, ?last, fun h => ?increase⟩
  case first => rw [palSeq_getElem? (by omega), palEntry_zero]
  case last => rw [palSeq_getElem? (by omega), palEntry_last hn]
  case increase =>
    rw [List.pairwise_iff_getElem]
    intro i j hi hj hij
    simpa [palSeq] using palEntry_lt h hij (by simpa using hj)

/-- Settles O31: no step skips a value, and from N = 257 on the first two entries are 0. -/
theorem largePaletteHoldsEveryLevel : Obligations.LargePaletteHoldsEveryLevel := by
  intro n hn
  refine ⟨fun v => ⟨fun h => ?range, mem_palSeq_of_le hn⟩, fun h => ⟨palSeq_sorted n, 0, 0, ?first, ?second⟩, ?four⟩
  case range =>
    obtain ⟨i, hi, rfl⟩ := mem_palSeq.1 h
    exact palEntry_le (by omega)
  case first => rw [palSeq_getElem? (by omega), palEntry_zero]
  case second =>
    have hzero : palEntry n 1 = 0 := Nat.div_eq_of_lt (by omega)
    rw [palSeq_getElem? (by omega), hzero]
  case four =>
    rintro rfl
    decide

/-- Settles O32: the machine's form is the scan, and the scan's answer is the smallest closest level. -/
theorem quantizerIsSmallestClosestLevel : Obligations.QuantizerIsSmallestClosestLevel := by
  intro n v hn _
  refine ⟨quantize_eq_nearest n v, ⟨quantize_mem (by omega) v, fun p hp => ⟨distance_quantize_le hp v, fun h => ?_⟩⟩,
    fun a ha hav hmax => ⟨fun hall => ?_, fun b => quantize_of_neighbours ha hav hmax⟩⟩
  · exact quantize_le_of_distance_le hp h.le
  · exact quantize_of_le_all ha (fun p hp => hmax p hp (hall p hp)) hav

/-- Settles O33: all but the last follow from the quantizer being the smallest closest level. -/
theorem quantizerProperties : Obligations.QuantizerProperties := by
  refine ⟨fun n v hn _ => ⟨quantize_mem (by omega) v, quantize_le n v⟩, fun n p _ => quantize_of_mem,
    fun n v w h _ => quantize_mono n h, fun n v => quantize_eq_self, fun n g hn hg hmax => ⟨fun v => ?bound, ?attained⟩,
    fun v => by simp⟩
  case bound => exact distance_quantize_le_half_gap hn hg
  case attained =>
    obtain ⟨i, hi, rfl⟩ := hmax
    have hle : palEntry n (i + 1) ≤ 255 := palEntry_le (by omega)
    have hmono := palEntry_mono n (Nat.le_add_right i 1)
    exact ⟨_, by omega, distance_quantize_middle hi rfl⟩

/-- Settles O34: each table is the `decisionRows` of its palette, evaluated. -/
theorem decisionThresholds : Obligations.DecisionThresholds := by
  intro v hv
  refine ⟨fun k hk => ?_, quantize_eq_levelByRows 2 v, quantize_eq_levelByRows 3 v, quantize_eq_levelByRows 4 v,
    quantize_eq_levelByRows 7 v, quantize_eq_levelByRows 15 v, fun n hn => quantize_eq_self hn (by omega)⟩
  rw [max_eq_right hk]
  exact quantize_eq_levelByRows 1 v

end Sys2Proof.Proofs
end

section
/-! PROOF. The saturating add (42_saturating_add.md R150 to R153): as an integer it is the clamp of the sum, which decides its
laws and what SATADD leaves in `RESULT`. -/

namespace Sys2Proof.Machine

variable {v w : Nat} {d e : Int}

/-- The clamp is not negative, so its conversion to a sample loses nothing (R150). -/
theorem cast_satAdd8 (v : Nat) (d : Int) : (satAdd8 v d : Int) = min (max ((v : Int) + d) 0) 255 :=
  Int.toNat_of_nonneg (le_min (le_max_right _ _) (by decide))

/-- A sum that is a sample is not clamped (R153). -/
theorem cast_satAdd8_of_sample (h0 : 0 ≤ (v : Int) + d) (h255 : (v : Int) + d ≤ 255) : (satAdd8 v d : Int) = v + d := by
  rw [cast_satAdd8, max_eq_left h0, min_eq_left h255]

/-- A larger sum is clamped to no smaller a sample (R153). -/
theorem satAdd8_le_of_sum_le (h : (v : Int) + d ≤ w + e) : satAdd8 v d ≤ satAdd8 w e :=
  Int.toNat_le_toNat (min_le_min_right _ (max_le_max_right _ h))

end Sys2Proof.Machine

namespace Sys2Proof.Proofs
open Sys2Proof Sys2Proof.Machine

/-- Settles O19: the step writes `RESULT` alone before it completes, and the sum fits its 8 bits. -/
theorem sataddWritesClampedSum : Obligations.SataddWritesClampedSum := by
  intro v d s _ _ _
  refine ⟨complete { s with result := u8 (satAdd8 v d) }, rfl, rfl, ?_⟩
  rw [complete_result, u8_satAdd8_toNat, cast_satAdd8]

/-- Settles O35: the laws follow from the clamp of the sum, and no sample less 128 is above 255. -/
theorem saturatingAddLaws : Obligations.SaturatingAddLaws := by
  refine ⟨fun v d _ _ _ => cast_satAdd8 v d, fun v hv => ?extreme, fun v hv => ?zero,
    fun v w d e hvw _ _ hde _ => satAdd8_le_of_sum_le (by omega), satAdd8_le, by decide, fun v d => cast_satAdd8_of_sample⟩
  case extreme =>
    have hsum : max ((v : Int) + -128) 0 ≤ 255 := by omega
    rw [cast_satAdd8, min_eq_left hsum, Int.sub_eq_add_neg]
  case zero =>
    have hsum : (satAdd8 v 0 : Int) = v + 0 := cast_satAdd8_of_sample (by omega) (by omega)
    omega

end Sys2Proof.Proofs
end

section
/-! PROOF. The pixel step of a DITHER in the numbers of the statements (43_dither.md R172 to R177, R182 to R184): the bounds of
the delta, what each cell of a plane takes, and what the step makes of a plane alone. The obligations O20, O21, O23, O36 and
O59. -/

namespace Sys2Proof.Machine
open Sys2Proof.Spec

variable {n lw lh x y q : Nat} {mem mem' : Memory} {c : Channel} {old : Byte} {e w : Int}

/-! ### The numeric rules, as the statements write them (R126, R150, R174) -/

theorem level_eq_quantize (n v : Nat) : level n v = quantize n v := (quantize_eq_nearest n v).symm

theorem satSum_eq_satAdd8 (v : Nat) (d : Int) : satSum v d = satAdd8 v d := (satAdd8_cases v d).symm

theorem scaled_eq_delta (e w : Int) : scaled e w = delta e w := (delta_cases e w).symm

/-! ### The bounds of the delta (R174, R175) -/

/-- Truncation toward zero divides the magnitude of the product. -/
theorem natAbs_delta (e w : Int) : (delta e w).natAbs = e.natAbs * w.natAbs / 16 := by
  rw [delta, tdiv, Int.natAbs_tdiv, Int.natAbs_mul]
  rfl

theorem natAbs_delta_le (he : e.natAbs ≤ 255) (w : Int) : (delta e w).natAbs ≤ 255 * w.natAbs / 16 := by
  rw [natAbs_delta]
  exact Nat.div_le_div_right (Nat.mul_le_mul_right _ he)

/-- A sample and its level are both in 0..255 (R177). -/
theorem natAbs_error_le {old : Nat} (n : Nat) (h : old ≤ 255) : ((old : Int) - (quantize n old : Int)).natAbs ≤ 255 := by
  have := quantize_le n old
  omega

/-- The weights of R173 keep the delta in the range of an `i8`, so narrowing loses nothing (R175). -/
theorem toInt_ofInt_delta (he : e.natAbs ≤ 255) (hw : w.natAbs ≤ 7) : (BitVec.ofInt 8 (delta e w)).toInt = delta e w := by
  have hd := natAbs_delta_le he w
  rw [BitVec.toInt_ofInt]
  exact Int.bmod_eq_of_le (by omega) (by omega)

/-! ### What each cell takes (R172, R173, R176) -/

/-- A pixel step by cells: the cursor's cell takes Q(old), each target whose guard holds its share, the rest stay. -/
theorem pixelMemory_read (hx : x < lw) (hy : y < lh) (hv : frameWritten mem (lw * lh))
    (hm : pixelMemory n lw lh x y mem = .ok mem') (hold : mem.read c (cellIndex lw x y) = some old) (q : Nat) :
    mem'.read c q =
      if q = cellIndex lw x y then some (u8 (quantize n old.toNat))
      else if q = cellIndex lw x y + 1 ∧ x + 1 < lw then addShare (pixelError n old) 7 (mem.read c q)
      else if q + 1 = cellIndex lw x y + lw ∧ y + 1 < lh ∧ 0 < x then addShare (pixelError n old) 3 (mem.read c q)
      else if q = cellIndex lw x y + lw ∧ y + 1 < lh then addShare (pixelError n old) 5 (mem.read c q)
      else if q = cellIndex lw x y + lw + 1 ∧ y + 1 < lh ∧ x + 1 < lw then addShare (pixelError n old) 1 (mem.read c q)
      else mem.read c q := by
  obtain ⟨_, hm', hread, -, -⟩ := pixelMemory_spec (n := n) hx hy hv
  cases hm.symm.trans hm'
  rw [hread c old hold q, shares_find hx]
  simp only [and_assoc, and_comm, and_left_comm]
  split_ifs <;> rfl

/-- What the step makes of a plane is a function of that plane (R182). -/
theorem pixelMemory_plane_congr {mem₁ mem₂ mem₁' mem₂' : Memory} {c₁ c₂ : Channel}
    (h₁ : pixelMemory n lw lh x y mem₁ = .ok mem₁') (h₂ : pixelMemory n lw lh x y mem₂ = .ok mem₂')
    (h : mem₁.plane c₁ = mem₂.plane c₂) : mem₁'.plane c₁ = mem₂'.plane c₂ := by
  have hplane := pixelMemory_ok h₁ c₁
  rw [h, pixelMemory_ok h₂ c₂] at hplane
  exact (Except.ok.inj hplane).symm

end Sys2Proof.Machine

namespace Sys2Proof.Proofs
open Sys2Proof Sys2Proof.Machine Sys2Proof.Spec

/-- Settles O20: the step writes the planes, whose cells `pixelMemory_read` gives, and moves the cursor without a wrap. -/
theorem ditherPixelStepDiffuses : Obligations.DitherPixelStepDiffuses := by
  intro s hx hy hv
  obtain ⟨mem', hm, hexec⟩ := execDither_pixel hx hy hv
  obtain ⟨hpx, hpy⟩ := advanceCursor_toNat (s := { s with mem := mem' }) hy
  refine ⟨_, hexec, ?frame, hpx, hpy, fun c old hold q => ?cells⟩
  case frame => simp [advanceCursor_eq]
  case cells =>
    simp only [level_eq_quantize, satSum_eq_satAdd8, scaled_eq_delta, advanceCursor_mem]
    exact pixelMemory_read hx hy hv hm hold q

/-- Settles O21: the branch of `execDither` where the cursor stands outside the frame. -/
theorem ditherCompletesAfterLastPixel : Obligations.DitherCompletesAfterLastPixel := fun _ => execDither_complete

/-- Settles O23: an empty frame passes both checks of a DITHER, and its cursor has no pixel to stand at. -/
theorem emptyFrameDitherTouchesNothing : Obligations.EmptyFrameDitherTouchesNothing := by
  intro s hop hempty
  have hframe : requestedFrame s = 0 := by
    unfold requestedFrame
    rcases hempty with h | h <;> simp [h]
  have hsubmit : submit 0x00000002#32 s = .next (accept 0x00000002#32 s) :=
    submit_dither ((not_busy_iff s).2 hop) (decode_encode (i := .dither) rfl) (by omega) fun _ _ hp => by omega
  refine ⟨_, _, hostAccess_writeCmd hsubmit, execDither_complete ?noPixel, rfl⟩
  case noPixel =>
    rintro ⟨hx, hy⟩
    exact absurd (cellIndex_lt hx hy) (Nat.not_lt.2 (hframe.trans_le (Nat.zero_le _)))

/-- Settles O36: the delta's magnitude is that of the product over 16, and the magnitude of an error is at most 255. -/
theorem deltaTruncatesWithinBounds : Obligations.DeltaTruncatesWithinBounds := by
  refine ⟨fun e w => (scaled_eq_delta e w).symm, by decide, fun n old e hold he => ?_⟩
  have herr : e.natAbs ≤ 255 := he ▸ natAbs_error_le n hold
  have h7 : (delta e 7).natAbs ≤ 111 := natAbs_delta_le herr 7
  have h5 : (delta e 5).natAbs ≤ 79 := natAbs_delta_le herr 5
  have h3 : (delta e 3).natAbs ≤ 47 := natAbs_delta_le herr 3
  have h1 : (delta e 1).natAbs ≤ 15 := natAbs_delta_le herr 1
  have hweight : ∀ w ∈ [(7 : Int), 5, 3, 1], w.natAbs ≤ 7 := by decide
  refine ⟨?_, ?_, ?_, ?_, ?_, fun w hw => toInt_ofInt_delta herr (hweight w hw)⟩ <;> omega

/-- Settles O59: both states take the same branch, and a pixel step makes of a plane a function of that plane. -/
theorem channelsAreIndependent : Obligations.ChannelsAreIndependent := by
  intro c s s' t t' hn hlw hlh hpx hpy hplane hs hs'
  have hin : (s.px.toNat < s.lw.toNat ∧ s.py.toNat < s.lh.toNat) ↔
      (s'.px.toNat < s'.lw.toNat ∧ s'.py.toNat < s'.lh.toNat) := by
    rw [hlw, hlh, hpx, hpy]
  obtain ⟨hx, hy, mem₁, hm₁, rfl⟩ | ⟨hout, rfl⟩ := execDither_cases hs <;>
    obtain ⟨hx', hy', mem₂, hm₂, rfl⟩ | ⟨hout', rfl⟩ := execDither_cases hs'
  · rw [hn, hlw, hlh, hpx, hpy] at hm₁
    simpa using pixelMemory_plane_congr hm₁ hm₂ hplane
  · exact absurd (hin.1 ⟨hx, hy⟩) hout'
  · exact absurd (hin.2 ⟨hx', hy'⟩) hout
  · exact hplane

end Sys2Proof.Proofs
end

section
/-! PROOF. The whole DITHER (43_dither.md R171, R183, R186): an induction over its pixel steps, packaged once, and the facts it
carries to the completion. The obligations O56, O57, O58 and O60. -/

namespace Sys2Proof.Machine
open Sys2Proof.Spec

variable {n lw lh x y : Nat} {mem mem' : Memory} {c : Channel} {s : State}

/-! ### The run of a DITHER (R171, R183) -/

/-- What every pixel step of a DITHER on frames of lw × lh pixels with palette size n hands on: `P k` of the planes before the
step at cell k gives `P (k + 1)` of the planes after it. -/
def PixelInvariant (n lw lh : Nat) (P : Nat → Memory → Prop) : Prop :=
  ∀ x y mem mem', x < lw → y < lh → frameWritten mem (lw * lh) → pixelMemory n lw lh x y mem = .ok mem' →
    P (cellIndex lw x y) mem → P (cellIndex lw x y + 1) mem'

/-- A legal cursor with no pixel left stands past the last cell of the frame. -/
theorem cursorCell_of_no_pixel (hc : cursorLegal s.lw.toNat s.lh.toNat s.px.toNat s.py.toNat)
    (hout : ¬(s.px.toNat < s.lw.toNat ∧ s.py.toNat < s.lh.toNat)) : cursorCell s = latchedFrame s := by
  unfold cursorCell cellIndex latchedFrame
  obtain hin | ⟨hx, hy⟩ | ⟨hx, hy, hlw⟩ := hc
  · exact absurd hin hout
  · rw [hx, hy, Nat.mul_comm, Nat.add_zero]
  · simp [hx, hy, hlw]

/-- From a running DITHER's cursor on, the pixel steps left and the completion change the planes, the cursor and the flags
alone, and carry a pixel invariant to the end of the frame. -/
theorem run_dither {P : Nat → Memory → Prop} {s : State} (hi : Inv s) (hop : s.op = some 0x00000002#32)
    (hp : s.pending = []) (hstep : PixelInvariant s.palN.toNat s.lw.toNat s.lh.toNat P) (hP : P (cursorCell s) s.mem) :
    ∃ mem', Host.Core.run Sys2Proof.core (pixelsLeft s + 1) s = .next (ditherComplete { s with mem := mem' }) ∧
      frameWritten mem' (latchedFrame s) ∧ P (latchedFrame s) mem' := by
  have hd : s.dithering = true := dithering_of_op hop
  have hexec : step s = execDither s :=
    (step_engine_alone hop hp).trans (engineStep_of_decode (decode_encode (i := .dither) rfl) s)
  by_cases hin : s.px.toNat < s.lw.toNat ∧ s.py.toNat < s.lh.toNat
  · obtain ⟨hx, hy⟩ := hin
    obtain ⟨mem₁, hm, hpixel⟩ := execDither_pixel hx hy (hi.frameHeld hd)
    have hnext : step s = .next (advanceCursor { s with mem := mem₁ }) := hexec.trans hpixel
    have hfewer : pixelsLeft (advanceCursor { s with mem := mem₁ }) + 1 = pixelsLeft s :=
      pixelsLeft_advance (s := { s with mem := mem₁ }) hx hy
    have hcell : cursorCell (advanceCursor { s with mem := mem₁ }) = cursorCell s + 1 :=
      cursorCell_advance (s := { s with mem := mem₁ }) hx hy
    obtain ⟨mem', hrun, hv, hend⟩ := run_dither (P := P) (hi.step hnext) (by simpa using hop) (by simpa using hp)
      (by simpa using hstep)
      (by simpa only [hcell, advanceCursor_mem] using hstep _ _ _ _ hx hy (hi.frameHeld hd) hm hP)
    refine ⟨mem', ?_, by simpa [latchedFrame] using hv, by simpa [latchedFrame] using hend⟩
    rw [← hfewer, core_run_next hnext, hrun, advanceCursor_eq]
    rfl
  · have hcell := cursorCell_of_no_pixel (hi.cursor hd) hin
    refine ⟨s.mem, ?_, hi.frameHeld hd, hcell ▸ hP⟩
    have hnone : pixelsLeft s = 0 := if_neg hin
    rw [hnone]
    exact core_run_next (hexec.trans (execDither_complete hin))
termination_by pixelsLeft s
decreasing_by omega

/-- A DITHER just accepted runs to its completion and carries a pixel invariant over its whole frame. -/
theorem ditherRun_spec {P : Nat → Memory → Prop} (hi : Inv s) (hs : ditherStarted s)
    (hstep : PixelInvariant s.palN.toNat s.lw.toNat s.lh.toNat P) (hP : P 0 s.mem) :
    ∃ mem', ditherRun s = .next (ditherComplete { s with mem := mem' }) ∧
      frameWritten mem' (s.lw.toNat * s.lh.toNat) ∧ P (s.lw.toNat * s.lh.toNat) mem' := by
  obtain ⟨hop, hp, hpx, hpy⟩ := hs
  have hstart : cursorCell s = 0 := by simp [cursorCell, cellIndex, hpx, hpy]
  have hleft : pixelsLeft s = s.lw.toNat * s.lh.toNat := by
    rw [pixelsLeft_eq (hi.cursor (dithering_of_op hop)), hstart]
    rfl
  rw [ditherRun, ← hleft]
  exact hleft ▸ run_dither hi hop hp hstep (hstart ▸ hP)

/-! ### The pixel step on the image of a plane (R171, R172) -/

/-- A pixel of the frame has a sample, and the plane's image shows it. -/
theorem exists_sample (hv : frameWritten mem (lw * lh)) (c : Channel) (hx : x < lw) (hy : y < lh) :
    ∃ v, mem.read c (cellIndex lw x y) = some v ∧ imageOf mem c lw x y = v.toNat := by
  obtain ⟨v, hread⟩ := Option.isSome_iff_exists.1 (hv c _ (cellIndex_lt hx hy))
  refine ⟨v, hread, ?_⟩
  rw [imageOf, show mem.read c (y * lw + x) = some v from hread, Option.getD_some]

theorem cellIndex_eq_iff {x' y' : Nat} (hx : x < lw) (hx' : x' < lw) :
    cellIndex lw x' y' = cellIndex lw x y ↔ x' = x ∧ y' = y :=
  ⟨cellIndex_inj hx' hx, fun ⟨h, h'⟩ => h ▸ h' ▸ rfl⟩

/-- A pixel stands at the cell of a target exactly when it is the target, where the guard keeps the target in its row. -/
theorem cellIndex_eq_and_iff {x' y' : Nat} {guard : Prop} (hx : guard → x < lw) (hx' : x' < lw) :
    cellIndex lw x' y' = cellIndex lw x y ∧ guard ↔ x' = x ∧ y' = y ∧ guard := by
  rw [← and_assoc]
  exact and_congr_left fun h => cellIndex_eq_iff (hx h) hx'

/-- The machine's pixel step on a plane is the statement's on the plane's image: the cells of the targets are the cells of
the pixels at their columns and rows. -/
theorem imageOf_pixelMemory (hx : x < lw) (hy : y < lh) (hv : frameWritten mem (lw * lh))
    (hm : pixelMemory n lw lh x y mem = .ok mem') {x' y' : Nat} (hx' : x' < lw) (hy' : y' < lh) :
    imageOf mem' c lw x' y' = pixelImage n lw lh x y (imageOf mem c lw) x' y' := by
  obtain ⟨old, hold, himage⟩ := exists_sample hv c hx hy
  obtain ⟨old', hold', himage'⟩ := exists_sample hv c hx' hy'
  have hright : cellIndex lw x' y' = cellIndex lw x y + 1 ∧ x + 1 < lw ↔ x' = x + 1 ∧ y' = y ∧ x + 1 < lw := by
    rw [← cellIndex_right]
    exact cellIndex_eq_and_iff id hx'
  have hleft : cellIndex lw x' y' + 1 = cellIndex lw x y + lw ∧ y + 1 < lh ∧ 0 < x ↔
      x' + 1 = x ∧ y' = y + 1 ∧ y + 1 < lh := by
    cases x with
    | zero => simp
    | succ x =>
      rw [← cellIndex_below, cellIndex_right, Nat.add_right_cancel_iff, Nat.add_right_cancel_iff,
        and_iff_left (Nat.succ_pos x)]
      exact cellIndex_eq_and_iff (fun _ => by omega) hx'
  have hbelow : cellIndex lw x' y' = cellIndex lw x y + lw ∧ y + 1 < lh ↔ x' = x ∧ y' = y + 1 ∧ y + 1 < lh := by
    rw [← cellIndex_below]
    exact cellIndex_eq_and_iff (fun _ => hx) hx'
  have hdiag : cellIndex lw x' y' = cellIndex lw x y + lw + 1 ∧ y + 1 < lh ∧ x + 1 < lw ↔
      x' = x + 1 ∧ y' = y + 1 ∧ y + 1 < lh ∧ x + 1 < lw := by
    rw [← cellIndex_below, ← cellIndex_right]
    exact cellIndex_eq_and_iff And.right hx'
  rw [imageOf, show mem'.read c (y' * lw + x') = _ from pixelMemory_read hx hy hv hm hold (cellIndex lw x' y'), hold']
  simp only [pixelImage, himage, himage', level_eq_quantize, satSum_eq_satAdd8, scaled_eq_delta,
    cellIndex_eq_iff hx hx', hright, hleft, hbelow, hdiag]
  split_ifs <;> simp [addShare, pixelError]

/-- The step makes of a pixel of the frame what it makes of it in every image with the same frame. -/
theorem pixelImage_congr {f g : Nat → Nat → Nat} {x' y' : Nat} (h : f x y = g x y) (h' : f x' y' = g x' y') :
    pixelImage n lw lh x y f x' y' = pixelImage n lw lh x y g x' y' := by
  simp only [pixelImage, h, h']

/-- The image after the first k steps of the traversal. -/
def traversalImage (n lw lh : Nat) (f : Nat → Nat → Nat) (k : Nat) : Nat → Nat → Nat :=
  (List.range k).foldl (fun g k => pixelImage n lw lh (k % lw) (k / lw) g) f

theorem ditherImage_eq_traversal (f : Nat → Nat → Nat) : ditherImage n lw lh f = traversalImage n lw lh f (lw * lh) := rfl

theorem traversalImage_cellIndex (hx : x < lw) (f : Nat → Nat → Nat) :
    traversalImage n lw lh f (cellIndex lw x y + 1) =
      pixelImage n lw lh x y (traversalImage n lw lh f (cellIndex lw x y)) := by
  have hcol : cellIndex lw x y % lw = x := by
    rw [cellIndex, Nat.mul_comm, Nat.mul_add_mod, Nat.mod_eq_of_lt hx]
  have hrow : cellIndex lw x y / lw = y := by
    rw [cellIndex, Nat.mul_comm, Nat.mul_add_div (by omega), Nat.div_eq_of_lt hx, Nat.add_zero]
  rw [traversalImage, List.range_succ, List.foldl_append]
  simp [hcol, hrow, traversalImage]

/-! ### What a DITHER hands on from step to step -/

/-- Each plane's image is the traversal so far of its image before, and the cells outside the frame are as before. -/
def Traversed (n lw lh : Nat) (mem₀ : Memory) (k : Nat) (mem : Memory) : Prop :=
  ∀ c, (∀ x y, x < lw → y < lh → imageOf mem c lw x y = traversalImage n lw lh (imageOf mem₀ c lw) k x y) ∧
    ∀ p, lw * lh ≤ p → mem.read c p = mem₀.read c p

theorem traversed_invariant (n lw lh : Nat) (mem₀ : Memory) : PixelInvariant n lw lh (Traversed n lw lh mem₀) := by
  intro x y mem mem' hx hy hv hm h c
  obtain ⟨hframe, hrest⟩ := h c
  refine ⟨fun x' y' hx' hy' => ?_, fun p hp => (pixelMemory_frame hx hy hm c hp).trans (hrest p hp)⟩
  rw [imageOf_pixelMemory hx hy hv hm hx' hy', traversalImage_cellIndex hx]
  exact pixelImage_congr (hframe x y hx hy) (hframe x' y' hx' hy')

/-- Every cell the cursor has passed holds a level. -/
def Quantized (n k : Nat) (mem : Memory) : Prop := ∀ c p, p < k → ∃ v, mem.read c p = some (u8 (quantize n v))

/-- A pixel step writes a level to its own cell and shares to later cells only. -/
theorem quantized_invariant (n lw lh : Nat) : PixelInvariant n lw lh (Quantized n) := by
  intro x y mem mem' hx hy hv hm h c p hp
  obtain ⟨old, hold⟩ := Option.isSome_iff_exists.1 (hv c _ (cellIndex_lt hx hy))
  have hread := pixelMemory_read hx hy hv hm hold p
  rcases Nat.lt_or_eq_of_le (Nat.le_of_lt_succ hp) with hlt | rfl
  · have hkept : mem'.read c p = mem.read c p := by
      rw [hread]
      repeat rw [if_neg (by omega)]
    exact hkept ▸ h c p hlt
  · exact ⟨old.toNat, hread.trans (if_pos rfl)⟩

/-- A sample that is a level makes no error, so its pixel step rewrites every cell with its own sample. -/
theorem pixelMemory_eq_self (hx : x < lw) (hy : y < lh) (hv : frameWritten mem (lw * lh)) (hw : mem.wf)
    (hlevel : ∀ c v, mem.read c (cellIndex lw x y) = some v → v.toNat ∈ palSeq n)
    (hm : pixelMemory n lw lh x y mem = .ok mem') : mem' = mem := by
  obtain ⟨_, hm', -, hwf, -⟩ := pixelMemory_spec (n := n) hx hy hv
  cases hm.symm.trans hm'
  have hw' : mem'.wf := hwf hw
  rw [Memory.wf_iff] at hw hw'
  refine Memory.ext_plane fun c => Plane.ext_read (hw' c) (hw c) fun q => ?_
  obtain ⟨old, hold⟩ := Option.isSome_iff_exists.1 (hv c _ (cellIndex_lt hx hy))
  have hfixed : quantize n old.toNat = old.toNat := quantize_of_mem (hlevel c old hold)
  have hread := pixelMemory_read hx hy hv hm hold q
  have hshare (w : Int) : addShare (pixelError n old) w (mem.read c q) = mem.read c q := by
    simp [addShare, pixelError, hfixed, satAdd8_zero]
  simp only [hshare, hfixed, u8_toNat, ite_self, ← hold] at hread
  rw [ite_eq_right_iff.2 fun hq => by rw [hq]] at hread
  exact hread

theorem grayscale_invariant (n lw lh : Nat) :
    PixelInvariant n lw lh (fun _ mem => mem.r = mem.g ∧ mem.g = mem.b) := by
  intro x y mem mem' hx hy hv hm ⟨hrg, hgb⟩
  exact ⟨pixelMemory_plane_congr (c₁ := .r) (c₂ := .g) hm hm hrg,
    pixelMemory_plane_congr (c₁ := .g) (c₂ := .b) hm hm hgb⟩

end Sys2Proof.Machine

namespace Sys2Proof.Proofs
open Sys2Proof Sys2Proof.Machine Sys2Proof.Spec

/-- Settles O56: the images of the planes follow the traversal step by step. -/
theorem ditherRunIsRasterTraversal : Obligations.DitherRunIsRasterTraversal := by
  intro s hi hs
  have hstart : Traversed s.palN.toNat s.lw.toNat s.lh.toNat s.mem 0 s.mem :=
    fun c => ⟨fun _ _ _ _ => rfl, fun _ _ => rfl⟩
  obtain ⟨mem', hrun, hv, hend⟩ := ditherRun_spec hi hs (traversed_invariant _ _ _ s.mem) hstart
  refine ⟨_, hrun, rfl, fun c => ?_⟩
  obtain ⟨hframe, hrest⟩ := hend c
  refine ⟨fun x y hx hy => ?_, hrest⟩
  obtain ⟨v, hread, himage⟩ := exists_sample hv c hx hy
  rw [ditherImage_eq_traversal, ← hframe x y hx hy, himage]
  exact hread.trans (congrArg some (u8_toNat v).symm)

/-- Settles O57: the cursor passes every cell of the frame, and without a palette the only level is 0. -/
theorem ditherRangeClosure : Obligations.DitherRangeClosure := by
  intro s hi hs
  obtain ⟨mem', hrun, -, hend⟩ := ditherRun_spec hi hs (quantized_invariant _ _ _) nofun
  refine ⟨_, hrun, fun c p hp => ?_⟩
  obtain ⟨v, hread⟩ := hend c p hp
  refine ⟨_, hread, fun hn => ?_, fun hn => ?_⟩
  · rw [u8_quantize_toNat]
    exact quantize_mem (by omega) v
  · rw [hn, quantize_zero]
    rfl

/-- Settles O58: every pixel step finds the planes as they were and leaves them so. -/
theorem ditherKeepsPaletteFrames : Obligations.DitherKeepsPaletteFrames := by
  intro s hi hs _ hlevels
  have hkept : PixelInvariant s.palN.toNat s.lw.toNat s.lh.toNat (fun _ mem => mem = s.mem) := by
    rintro x y mem mem' hx hy hv hm rfl
    exact pixelMemory_eq_self hx hy hv hi.canonical (fun c v => hlevels c _ v (cellIndex_lt hx hy)) hm
  obtain ⟨mem', hrun, -, hend⟩ := ditherRun_spec hi hs hkept rfl
  exact ⟨_, hrun, hend⟩

/-- Settles O60: a pixel step makes of equal planes equal planes. -/
theorem ditherKeepsGrayscale : Obligations.DitherKeepsGrayscale := by
  intro s hi hs hrg hgb
  obtain ⟨mem', hrun, -, hend⟩ := ditherRun_spec hi hs (grayscale_invariant _ _ _) ⟨hrg, hgb⟩
  exact ⟨_, hrun, hend⟩

end Sys2Proof.Proofs
end

section
/-! PROOF. Where a step stops (43_dither.md R183 and R185; 60_exceptions.md R200): only the submission of a DITHER can fault, and
it does so exactly where its frame holds a cell without a value. The obligations O26 and O52. -/

namespace Sys2Proof.Machine
open Sys2Proof.Spec

variable {mem : Memory} {c : Channel} {p n : Nat} {w : Word} {s : State} {x : Access} {f : Fault}

/-! ### The cell a fault reports (R185) -/

/-- The plane reported is the smallest with a cell without a value, and the cell is the smallest of that plane. -/
theorem Memory.firstUnwritten_eq_some_iff :
    mem.firstUnwritten n = some (c, p) ↔
      Plane.firstUnwritten (mem.plane c) n = some p ∧
        (c = .g ∨ c = .b → Plane.firstUnwritten mem.r n = none) ∧ (c = .b → Plane.firstUnwritten mem.g n = none) := by
  unfold Memory.firstUnwritten
  split
  · next q hr => cases c <;> simp [Memory.plane, hr]
  · next hr =>
    split
    · next q hg => cases c <;> simp [Memory.plane, hr, hg]
    · next hg =>
      split
      · next q hb => cases c <;> simp [Memory.plane, hr, hg, hb]
      · next hb => cases c <;> simp [Memory.plane, hr, hg, hb]

theorem Memory.read_eq_none_of_firstUnwritten (h : mem.firstUnwritten n = some (c, p)) :
    p < n ∧ mem.read c p = none := by
  obtain ⟨hfirst, -⟩ := Memory.firstUnwritten_eq_some_iff.1 h
  obtain ⟨hp, hread, -⟩ := (Plane.firstUnwritten_some _ _ _).1 hfirst
  exact ⟨hp, hread⟩

/-! ### The access that faults (R100, R185) -/

/-- A submission faults exactly when a DITHER passes the checks of R100 and its frame holds a cell without a value. -/
theorem submit_eq_fault_iff :
    submit w s = .fault (.unwritten c p) ↔
      s.op = none ∧ w = 0x00000002#32 ∧ requestedFrame s ≤ s.cfg.maxPixels ∧
        s.mem.firstUnwritten (requestedFrame s) = some (c, p) := by
  constructor
  · intro h
    unfold submit at h
    split at h
    · nomatch h
    · next hb =>
      split at h
      · nomatch h
      · nomatch h
      · next i hdec =>
        split_ifs at h with hd hf
        subst hd
        split at h
        · next hfirst =>
          cases h
          exact ⟨(not_busy_iff s).1 (Bool.eq_false_iff.2 hb), (encode_of_decode hdec).symm, Nat.not_lt.1 hf, hfirst⟩
        · nomatch h
  · rintro ⟨hop, rfl, hf, hfirst⟩
    have hdec : decode 0x00000002#32 = .ok .dither := decode_encode (i := .dither) rfl
    simp [submit, (not_busy_iff s).2 hop, hdec, Nat.not_lt.2 hf, hfirst]

/-- Of the registers only `CMD` can fault, by its submission. -/
theorem hostWriteReg_fault {a : Nat} (h : hostWriteReg (regAt a) w s = .fault f) :
    a = 0x018 ∧ submit w s = .fault f := by
  have hnamed : ∀ a < 0x038, regAt a = .cmd → a = 0x018 := by decide
  have ha : a < 0x038 := by
    by_contra hge
    rw [hostWriteReg_window (Nat.not_lt.1 hge)] at h
    nomatch h
  cases hr : regAt a with
  | cmd =>
    rw [hr] at h
    exact ⟨hnamed a ha hr, h⟩
  | _ =>
    rw [hr] at h
    nomatch h

/-- Of all accesses only a submission can fault. -/
theorem hostAccess_fault (h : hostAccess x s = .fault f) : ∃ w, x = writeCmd w ∧ submit w s = .fault f := by
  cases x with
  | read a n =>
    obtain ⟨r, i, -, hread⟩ := hostAccess_read a n s
    nomatch hread.symm.trans h
  | write a d =>
    cases ht : target s.cfg.maxPixels a d.width with
    | none => nomatch (hostAccess_of_target_none (x := .write a d) ht).symm.trans h
    | some g =>
      simp only [hostAccess, ht] at h
      split at h
      · nomatch h
      · next hg =>
        cases h
        cases g with
        | cells c p => nomatch hg
        | register r =>
          obtain ⟨hn, rfl⟩ := target_eq_register ht
          obtain ⟨ha, hsubmit⟩ := hostWriteReg_fault hg
          obtain rfl : a = 0x018#22 := BitVec.eq_of_toNat_eq ha
          cases d with
          | d4 v => exact ⟨v, rfl, hsubmit⟩
          | _ => nomatch hn
      · nomatch h

/-- A turn of the host answers a next state, or it is a submission that faults; the waits write nothing. -/
theorem hostStep_outcome (op : HostOp) (s : State) :
    (∃ t, hostStep op s = .next t) ∨
      ∃ w c p, op = .access (writeCmd w) ∧ hostStep op s = .fault (.unwritten c p) ∧
        submit w s = .fault (.unwritten c p) := by
  cases op with
  | access x =>
    obtain ⟨r, k, h⟩ | ⟨o, -, ⟨t, -, h⟩ | ⟨c, p, -, h⟩⟩ := hostAccess_cases x s
    · exact .inl ⟨_, h⟩
    · exact .inl ⟨_, h⟩
    · obtain ⟨w, rfl, hsubmit⟩ := hostAccess_fault h
      exact .inr ⟨w, c, p, rfl, h, hsubmit⟩
  | waitIdle =>
    obtain ⟨r, i, -, h⟩ := hostAccess_read 0x00C#22 .w4
      { s with pending := if s.busy then .waitIdle :: s.pending else s.pending }
    exact .inl ⟨_, h⟩
  | waitIrq => exact .inl ⟨_, rfl⟩

/-- From a state that meets the invariant the engine never stops (R104). -/
theorem engineStep_safe (hi : Inv s) (hop : s.op = some w) : ∃ t, engineStep w s = .next t := by
  obtain ⟨i, hdec⟩ := hi.opCommand w hop
  obtain ⟨t, hexec, -⟩ := exec_progress hi hop hdec
  exact ⟨t, (engineStep_of_decode hdec s).trans hexec⟩

end Sys2Proof.Machine

namespace Sys2Proof.Proofs
open Sys2Proof Sys2Proof.Machine Sys2Proof.Spec

/-- Settles O26: the frame passes R100's checks, and the hypotheses say that (c, p) is the cell the frame check finds. -/
theorem unwrittenFrameFaults : Obligations.UnwrittenFrameFaults := by
  intro s c p hop hfits hp hnone hbefore hr hg
  have hfirst : s.mem.firstUnwritten (requestedFrame s) = some (c, p) :=
    Memory.firstUnwritten_eq_some_iff.2 ⟨(Plane.firstUnwritten_some _ _ _).2 ⟨hp, hnone, hbefore⟩,
      fun hc => (Plane.firstUnwritten_none _ _).2 fun q hq => hr q hq hc,
      fun hc => (Plane.firstUnwritten_none _ _).2 fun q hq => hg q hq hc⟩
  have hsubmit : hostWriteReg (regAt 0x018) 0x00000002#32 s = .fault (.unwritten c p) :=
    submit_eq_fault_iff.2 ⟨hop, rfl, hfits, hfirst⟩
  exact hostAccess_writeReg_fault (by decide) (by decide) hsubmit

/-- Settles O52: the idle block and the engine do not stop, and the host stops only at the submission R185 gives no
meaning. -/
theorem stepStopsOnlyOnUnwrittenFrame : Obligations.StepStopsOnlyOnUnwrittenFrame := by
  intro s hi
  obtain ⟨-, -, hstep⟩ | ⟨w, sched, hop, hstep⟩ | ⟨op, rest, sched, hp, hstep⟩ := step_cases s
  · exact .inl ⟨s, hstep⟩
  · have hi' : Inv { s with schedule := sched } := hi.withUnread ..
    obtain ⟨t, ht⟩ := engineStep_safe hi' hop
    exact .inl ⟨t, hstep.trans ht⟩
  · obtain ⟨t, ht⟩ | ⟨w, c, p, rfl, hfault, hsubmit⟩ := hostStep_outcome op { s with pending := rest, schedule := sched }
    · exact .inl ⟨t, hstep.trans ht⟩
    · obtain ⟨hop, rfl, -, hfirst⟩ := submit_eq_fault_iff.1 hsubmit
      obtain ⟨hframe, hnone⟩ := Memory.read_eq_none_of_firstUnwritten hfirst
      exact .inr ⟨c, p, rest, hstep.trans hfault, hop, hp, hframe, hnone⟩

end Sys2Proof.Proofs
end

section
/-! PROOF. The host's wait for `IRQ` (10_state.md R48; 20_memory.md R76; 40_command.md R104; 60_exceptions.md R214, R230): while
a command runs each step uses up a turn of the schedule or a pixel of the frame, and the completion raises the line. The
obligation O13. -/

namespace Sys2Proof.Machine

variable {s t : State} {w : Word} {rest : List HostOp} {sched : List Agent}

/-! ### One turn of the wait (R214, R230) -/

theorem irq_iff (s : State) : s.irq = true ↔ s.ie = true ∧ (s.done = true ∨ s.err = true) := by simp [State.irq]

/-- A turn of the wait with `IRQ` low leaves the wait at the head of the host's program. -/
theorem hostStep_waitIrq_low (h : s.irq = false) :
    hostStep .waitIrq s = .next { s with pending := .waitIrq :: s.pending } := by
  simp [hostStep, h]

/-- A turn of the wait with `IRQ` high passes it. -/
theorem hostStep_waitIrq_high (h : s.irq = true) : hostStep .waitIrq s = .next s := by simp [hostStep, h]

/-! ### A host that waits -/

/-- The host waits for `IRQ`, which only a completion can raise: IE is 1 and no error is recorded. -/
structure AwaitsIrq (rest : List HostOp) (s : State) : Prop where
  enabled : s.ie = true
  noError : s.err = false
  waiting : s.pending = .waitIrq :: rest

theorem AwaitsIrq.irq_eq_done (h : AwaitsIrq rest s) : s.irq = s.done := by simp [State.irq, h.enabled, h.noError]

/-- The engine writes none of the fields the wait looks at but DONE. -/
theorem EngineEffect.awaitsIrq (he : EngineEffect s t) (h : AwaitsIrq rest s) : AwaitsIrq rest t := by
  obtain ⟨hie, herr, hp⟩ := h
  cases he <;> exact ⟨by simpa using hie, by simpa using herr, by simpa using hp⟩

theorem EngineEffect.schedule_eq (he : EngineEffect s t) : t.schedule = s.schedule := by
  cases he <;> simp

/-! ### Each step brings the wait nearer to its end (R76, R104) -/

/-- The steps a running command can still take before the one that completes it: its pixel steps, and the turns the
schedule can give to the host. -/
def turnsLeft (s : State) : Nat := pixelsLeft s + s.schedule.length

/-- After a step of the machine the host still waits, and the command has completed or fewer turns are left. -/
def WaitProgress (w : Word) (rest : List HostOp) (s : State) : Prop :=
  ∃ t, step s = .next t ∧ AwaitsIrq rest t ∧
    ((t.op = none ∧ t.done = true) ∨ (t.op = some w ∧ turnsLeft t < turnsLeft s))

/-- An engine step completes the command or takes one of its pixels. -/
theorem waitProgress_of_engine (hi : Inv s) (hop : s.op = some w) (h : AwaitsIrq rest s)
    (hlen : sched.length ≤ s.schedule.length) (hstep : step s = engineStep w { s with schedule := sched }) :
    WaitProgress w rest s := by
  obtain ⟨i, hdec⟩ := hi.opCommand w hop
  have hi' : Inv { s with schedule := sched } := hi.withUnread ..
  obtain ⟨t, hexec, hprogress⟩ := exec_progress hi' hop hdec
  rw [← engineStep_of_decode hdec] at hexec
  have he : EngineEffect { s with schedule := sched } t := engineStep_effect hop hexec
  refine ⟨t, hstep.trans hexec, he.awaitsIrq ⟨h.enabled, h.noError, h.waiting⟩, ?_⟩
  refine hprogress.imp_right fun ⟨_, hopt, _, (hleft : pixelsLeft t + 1 = pixelsLeft s)⟩ => ⟨hopt, ?_⟩
  rw [turnsLeft, turnsLeft, he.schedule_eq]
  dsimp only
  omega

/-- A turn of the host is a turn of its wait, which DONE = 0 keeps it in. -/
theorem waitProgress_of_host (hi : Inv s) (hop : s.op = some w) (h : AwaitsIrq rest s)
    (hs : s.schedule = .host :: sched) : WaitProgress w rest s := by
  have hdone : s.done = false := hi.doneIdle ((busy_iff s).2 ⟨w, hop⟩)
  have hlow : s.irq = false := h.irq_eq_done.trans hdone
  have hstep := (step_schedule_host hop h.waiting hs).trans (hostStep_waitIrq_low hlow)
  refine ⟨_, hstep, ⟨h.enabled, h.noError, rfl⟩, .inr ⟨hop, ?_⟩⟩
  show pixelsLeft s + sched.length < pixelsLeft s + s.schedule.length
  rw [hs, List.length_cons]
  omega

theorem waitProgress (hi : Inv s) (hop : s.op = some w) (h : AwaitsIrq rest s) : WaitProgress w rest s := by
  cases hs : s.schedule with
  | nil => exact waitProgress_of_engine hi hop h le_rfl (step_schedule_empty hop hs)
  | cons agent sched =>
    cases agent with
    | engine => exact waitProgress_of_engine hi hop h (by simp [hs]) (step_schedule_engine hop h.waiting hs)
    | host => exact waitProgress_of_host hi hop h hs

/-- With the command complete the host's next turn passes the wait. -/
theorem step_passes_wait (hop : s.op = none) (hdone : s.done = true) (h : AwaitsIrq rest s) :
    step s = .next { s with pending := rest } := by
  have hhigh : s.irq = true := h.irq_eq_done.trans hdone
  exact (step_host_alone hop h.waiting).trans (hostStep_waitIrq_high hhigh)

/-- From a running command on, the turns left, the completion and the host's turn after it are enough. -/
theorem run_passes_wait {s : State} (hi : Inv s) (hop : s.op = some w) (h : AwaitsIrq rest s) :
    ∃ k t, k ≤ turnsLeft s + 2 ∧ Host.Core.run Sys2Proof.core k s = .next { t with pending := rest } ∧
      t.op = none ∧ t.done = true ∧ AwaitsIrq rest t := by
  obtain ⟨t, hstep, hwait, ⟨hidle, hdone⟩ | ⟨hopt, hfewer⟩⟩ := waitProgress hi hop h
  · exact ⟨2, t, by omega, (core_run_next hstep).trans (core_run_next (step_passes_wait hidle hdone hwait)), hidle, hdone,
      hwait⟩
  · obtain ⟨k, u, hk, hrun, hend⟩ := run_passes_wait (hi.step hstep) hopt hwait
    exact ⟨k + 1, u, by omega, (core_run_next hstep).trans hrun, hend⟩
termination_by turnsLeft s
decreasing_by exact hfewer

end Sys2Proof.Machine

namespace Sys2Proof.Proofs
open Sys2Proof Sys2Proof.Machine

/-- Settles O13: the wait is a test of `IRQ`, and by induction over the turns left the run comes to the completion, after
which the host's next turn passes the wait. -/
theorem interruptWaitOrdersResults : Obligations.InterruptWaitOrdersResults := by
  refine ⟨fun s => by simp only [hostStep, irq_iff], fun s w rest hi hop hie herr hp => ?_⟩
  obtain ⟨k, t, hk, hrun, hidle, hdone, hwait⟩ := run_passes_wait hi hop ⟨hie, herr, hp⟩
  have hpixels : pixelsLeft s ≤ s.lw.toNat * s.lh.toNat := pixelsLeft_le_latchedFrame s
  rw [turnsLeft] at hk
  exact ⟨k, _, by omega, hrun, rfl, hidle, hdone, hwait.noError, hwait.irq_eq_done.trans hdone⟩

end Sys2Proof.Proofs
end

section
/-! PROOF. The host's image duties (60_exceptions.md R231, R232): the writes of one plane, one after the other for the three
planes, and the pixel read back. The obligation O15. -/

namespace Sys2Proof.Machine

variable {pixels : List Pixel} {k : Nat} {q : Pixel}

/-! ### Loading an image (R231) -/

/-- The writes that fill one plane with an image, pixel k into cell k. -/
def planeWrites (c : Channel) (pixels : List Pixel) : List HostOp := pixels.mapIdx fun k q => cellWrite c k (q.sample c)

@[simp] theorem length_planeWrites (c : Channel) (pixels : List Pixel) : (planeWrites c pixels).length = pixels.length :=
  List.length_mapIdx

theorem planeWrites_getElem? (c : Channel) (h : pixels[k]? = some q) :
    (planeWrites c pixels)[k]? = some (cellWrite c k (q.sample c)) := by
  rw [planeWrites, List.getElem?_mapIdx, h, Option.map_some]

theorem planeWrites_append_getElem? (c : Channel) (ops : List HostOp) (h : pixels[k]? = some q) :
    (planeWrites c pixels ++ ops)[k]? = some (cellWrite c k (q.sample c)) := by
  obtain ⟨hk, -⟩ := List.getElem?_eq_some_iff.1 h
  rw [List.getElem?_append_left (by rwa [length_planeWrites]), planeWrites_getElem? c h]

/-- What stands after the writes of a plane stands one image further on. -/
theorem planeWrites_append_getElem?_add (c : Channel) (pixels : List Pixel) (ops : List HostOp) (k : Nat) :
    (planeWrites c pixels ++ ops)[pixels.length + k]? = ops[k]? := by
  rw [← length_planeWrites c pixels, List.getElem?_append_right (Nat.le_add_right ..), Nat.add_sub_cancel_left]

/-- An image that fits the plane's window is written to the plane pixel by pixel. -/
theorem expand_load_samples (c : Channel) (h : pixels.length ≤ 0x100000) :
    (HostLine.load c 0 (pixels.map fun q => q.sample c)).expand = some (planeWrites c pixels) := by
  rw [HostLine.expand, loadBytes_eq c _ (by simpa using h)]
  simp [planeWrites, List.mapIdx_eq_zipIdx_map, List.zipIdx_map]

/-- The planes are filled one after the other, R, G and B. -/
theorem expandProgram_loadImage (h : pixels.length ≤ 0x100000) :
    expandProgram (loadImage pixels) = some (planeWrites .r pixels ++ (planeWrites .g pixels ++ planeWrites .b pixels)) := by
  simp [loadImage, expandProgram, expand_load_samples _ h]

/-! ### The output pixel (R232) -/

/-- A pixel is read exactly where its cell of each plane holds a value. -/
theorem outputPixel_eq_some_iff {m : Memory} {w x y : Nat} {vr vg vb : Byte} :
    outputPixel m w x y = some (vr, vg, vb) ↔
      m.read .r (cellIndex w x y) = some vr ∧ m.read .g (cellIndex w x y) = some vg ∧
        m.read .b (cellIndex w x y) = some vb := by
  unfold outputPixel Memory.read Memory.plane
  split
  · next hr hg hb => simp [hr, hg, hb]
  · next hnone => exact ⟨nofun, fun ⟨hr, hg, hb⟩ => (hnone _ _ _ hr hg hb).elim⟩

end Sys2Proof.Machine

namespace Sys2Proof.Proofs
open Sys2Proof Sys2Proof.Machine

/-- Settles O15: the writes are those of the three planes one after the other, each as many as there are pixels. -/
theorem imageLoadWritesEveryPixel : Obligations.ImageLoadWritesEveryPixel := by
  refine ⟨fun pixels h => ⟨_, expandProgram_loadImage h, ?length, fun k q hq => ⟨?red, ?green, ?blue⟩⟩,
    fun _ _ _ _ _ _ _ => outputPixel_eq_some_iff⟩
  case length =>
    simp only [List.length_append, length_planeWrites]
    omega
  case red => exact planeWrites_append_getElem? .r _ hq
  case green =>
    rw [planeWrites_append_getElem?_add]
    exact planeWrites_append_getElem? .g _ hq
  case blue =>
    rw [Nat.two_mul, Nat.add_assoc, planeWrites_append_getElem?_add, planeWrites_append_getElem?_add]
    exact planeWrites_getElem? .b hq

end Sys2Proof.Proofs
end

section
/-! PROOF. The soft reset and the idle block (70_reset_and_hazards.md R242 to R244, R252): what is left of the planes when
a running DITHER is abandoned, and the step with which a run is at its end. The obligations O10 and O47. -/

namespace Sys2Proof.Machine

/-- A write to `CTRL` with bit 1 is the soft reset, whatever the other bits are (R25, R242). -/
theorem writeCtrl_of_bit1 {v : Word} (h : v.toNat / 2 % 2 = 1) (s : State) : writeCtrl v s = softReset s :=
  if_pos ((getLsbD_iff v 1).2 h)

/-- A DITHER runs exactly when the low byte of the word in `OP` is 2 (R91, R93). -/
theorem dithering_eq_any (s : State) : s.dithering = s.op.any fun w => w.toNat % 256 == 2 := by
  cases hop : s.op with
  | none => exact not_dithering_of_idle hop
  | some w => rw [dithering_of_op hop, isDitherWord, fieldOpc_eq, Option.any_some]

/-- A soft reset takes the cells of a running DITHER's frame and no other (R243). -/
theorem read_planesAfterSoftReset (s : State) (c : Channel) (p : Nat) :
    (planesAfterSoftReset s).read c p =
      if s.dithering = true ∧ p < latchedFrame s then none else s.mem.read c p := by
  unfold planesAfterSoftReset
  by_cases hd : s.dithering = true
  · simp [hd, Memory.read_clearBelow]
  · simp [hd]

/-- With neither a command nor a host item the run is at its end (R244, R252). -/
theorem step_idle {s : State} (hop : s.op = none) (hp : s.pending = []) : step s = .next s := by
  rw [step, hop, hp]

end Sys2Proof.Machine

namespace Sys2Proof.Proofs
open Sys2Proof Sys2Proof.Machine

/-- Settles O47: the write is the soft reset, whose registers are those of `State.resetWith` and whose planes lose a running
DITHER's frame. -/
theorem softResetKeepsPlanes : Obligations.SoftResetKeepsPlanes := by
  intro v s hv
  have hwrite : hostWriteReg .ctrl v s = .next (softReset s) := congrArg Host.Outcome.next (writeCtrl_of_bit1 hv s)
  refine ⟨_, hostAccess_write_reg (a := 0x008) (r := .ctrl) (by decide) hwrite, rfl, fun c p => ?_⟩
  rw [← dithering_eq_any]
  exact read_planesAfterSoftReset s c p

/-- Settles O10: the branch of `step` where neither agent can move. -/
theorem idleBlockStays : Obligations.IdleBlockStays := fun _ => step_idle

end Sys2Proof.Proofs
end
